-- ==== Sys2Proof/Word.lean ====
section
/-! DEFINITION. The core's word types: bytes, 16-bit words, addresses and register numbers (00_scope R5, R8). -/

namespace Sys2Proof

/-- A register value or a memory byte: 8 bits, unsigned (R5, R20, R50). -/
abbrev Byte := BitVec 8

/-- An instruction word, a program-counter value or a stack slot: 16 bits (R25, R30, R70). -/
abbrev Word := BitVec 16

/-- The `nnn` field: a 12-bit address (R70, R71). -/
abbrev Addr12 := BitVec 12

/-- A register number 0x0-0xF: every 4-bit field is in range (R20, R72). -/
abbrev Reg := Fin 16

/-- The carry register's number (R21). -/
def regVF : Reg := 15

end Sys2Proof
end

