-- ==== Sys2Proof/Syntax.lean ====
section
/-! DEFINITION. The instructions: one constructor for each row of spec/opcode_table.json, in the table's order. -/

namespace Sys2Proof

/-- The 15 decoded forms of 30_encoding R73 with their operands.
The operand types hold exactly the values the fields admit (R20, R71, R72), so every term is an instruction. -/
inductive Instr where
  /-- `0000` halt (R120). -/
  | halt
  /-- `00E0` clear-display (R121). -/
  | clearDisplay
  /-- `00EE` return (R130). -/
  | ret
  /-- `1nnn` jump (R131). -/
  | jump (nnn : Addr12)
  /-- `2nnn` call (R132). -/
  | call (nnn : Addr12)
  /-- `3xkk` skip-if-equal-immediate (R140). -/
  | skipEqImm (x : Reg) (kk : Byte)
  /-- `4xkk` skip-if-not-equal-immediate (R141). -/
  | skipNeImm (x : Reg) (kk : Byte)
  /-- `5xy0` skip-if-equal-registers (R142). -/
  | skipEqReg (x y : Reg)
  /-- `6xkk` load-immediate (R150). -/
  | loadImm (x : Reg) (kk : Byte)
  /-- `7xkk` add-immediate (R151). -/
  | addImm (x : Reg) (kk : Byte)
  /-- `8xy0` copy (R161). -/
  | copy (x y : Reg)
  /-- `8xy1` bitwise-or (R162). -/
  | bitOr (x y : Reg)
  /-- `8xy2` bitwise-and (R163). -/
  | bitAnd (x y : Reg)
  /-- `8xy3` bitwise-xor (R164). -/
  | bitXor (x y : Reg)
  /-- `8xy4` add-registers (R165). -/
  | addReg (x y : Reg)
deriving DecidableEq, Repr

end Sys2Proof
end

