-- ==== Sys2Proof/WellFormed.lean ====
section
/-! DEFINITION. Well-formedness of a source instruction (30_encoding R79-R81): a mnemonic and operands as a program writes them, checked against their fields.
A term of `Instr` needs no check, because its types hold exactly the values the fields admit. -/

namespace Sys2Proof

/-- An operand as written: a register `Vn` or a number, of any size (R79). -/
inductive SrcOperand where
  | reg (n : Nat)
  | num (n : Nat)
deriving DecidableEq, Repr

/-- A source instruction: a mnemonic and its operands (R79). -/
structure SrcInstr where
  mnemonic : String
  operands : List SrcOperand
deriving DecidableEq, Repr

/-- Why a source instruction is an assembly error: "a value that does not fit its field is an assembly error, never a truncation" (R79). -/
inductive SrcError where
  /-- The mnemonic is none of R79's names and none of R80's aliases. -/
  | unknownMnemonic
  /-- The operands are not of a kind and number the mnemonic takes. -/
  | operandShape
  /-- A register number above 0xF. -/
  | registerRange
  /-- A `kk` above 0xFF. -/
  | byteRange
  /-- An `nnn` above 0xFFF. -/
  | addressRange
deriving DecidableEq, Repr

/-- The operands a mnemonic takes, with the instruction they make (R79's syntax column). -/
inductive SrcShape where
  | noOperand (i : Instr)
  | address (make : Addr12 → Instr)
  | regImm (make : Reg → Byte → Instr)
  | regReg (make : Reg → Reg → Instr)

/-- The names of R79, then the aliases of R80, which "change no encoding and no semantics". -/
def srcRows : List (String × SrcShape) :=
  [("halt", .noOperand .halt),
   ("clear-display", .noOperand .clearDisplay),
   ("return", .noOperand .ret),
   ("jump", .address .jump),
   ("call", .address .call),
   ("skip-if-equal-immediate", .regImm .skipEqImm),
   ("skip-if-not-equal-immediate", .regImm .skipNeImm),
   ("skip-if-equal-registers", .regReg .skipEqReg),
   ("load-immediate", .regImm .loadImm),
   ("add-immediate", .regImm .addImm),
   ("copy", .regReg .copy),
   ("bitwise-or", .regReg .bitOr),
   ("bitwise-and", .regReg .bitAnd),
   ("bitwise-xor", .regReg .bitXor),
   ("add-registers", .regReg .addReg)] ++
  [("CLS", .noOperand .clearDisplay),
   ("RET", .noOperand .ret),
   ("JP", .address .jump),
   ("CALL", .address .call),
   ("SE", .regImm .skipEqImm),
   ("SNE", .regImm .skipNeImm),
   ("SE", .regReg .skipEqReg),
   ("LD", .regImm .loadImm),
   ("ADD", .regImm .addImm),
   ("LD", .regReg .copy),
   ("OR", .regReg .bitOr),
   ("AND", .regReg .bitAnd),
   ("XOR", .regReg .bitXor),
   ("ADD", .regReg .addReg)]

/-- A register operand is `V0`-`VF` (R79). -/
def srcReg (n : Nat) : Except SrcError Reg :=
  if h : n < 16 then .ok ⟨n, h⟩ else .error .registerRange

/-- `kk` is a number from 0 to 0xFF (R79). -/
def srcByte (n : Nat) : Except SrcError Byte :=
  if n < 256 then .ok (BitVec.ofNat 8 n) else .error .byteRange

/-- `nnn` is a number from 0 to 0xFFF (R79). -/
def srcAddr (n : Nat) : Except SrcError Addr12 :=
  if n < 4096 then .ok (BitVec.ofNat 12 n) else .error .addressRange

/-- The instruction the operands make in one shape. -/
def SrcShape.build : SrcShape → List SrcOperand → Except SrcError Instr
  | .noOperand i, [] => .ok i
  | .address make, [.num n] => (srcAddr n).map make
  | .regImm make, [.reg n, .num k] => (srcReg n).bind fun x => (srcByte k).map (make x)
  | .regReg make, [.reg n, .reg m] => (srcReg n).bind fun x => (srcReg m).map (make x)
  | _, _ => .error .operandShape

/-- The rows of one mnemonic, tried in order: an alias with two rows is told apart by its operands' shape (R80). -/
def tryShapes : List SrcShape → List SrcOperand → Except SrcError Instr
  | [], _ => .error .operandShape
  | sh :: rest, ops =>
    match sh.build ops with
    | .error .operandShape => tryShapes rest ops
    | r => r

/-- The shapes a mnemonic stands for. -/
def shapesOf (mnemonic : String) : List SrcShape :=
  (srcRows.filter fun row => row.1 = mnemonic).map Prod.snd

/-- The check: the instruction a source instruction stands for, or the error by name. -/
def SrcInstr.check (si : SrcInstr) : Except SrcError Instr :=
  match shapesOf si.mnemonic with
  | [] => .error .unknownMnemonic
  | shapes => tryShapes shapes si.operands

/-- A source instruction is well-formed when the check accepts it. -/
def SrcInstr.wf (si : SrcInstr) : Bool :=
  match si.check with
  | .ok _ => true
  | .error _ => false

end Sys2Proof
end

