-- ==== Sys2Proof/Decode.lean ====
section
/-! DEFINITION. The decoder (30_encoding R70-R78) over words and bytes, and after it the encoder, written from the same table. -/

namespace Sys2Proof

/-! ### Fields (R70) -/

/-- `c`: bits 15:12, the operation class. -/
def fieldC (op : Word) : BitVec 4 := op.extractLsb' 12 4

/-- `x`: bits 11:8, the first register operand. -/
def fieldX (op : Word) : BitVec 4 := op.extractLsb' 8 4

/-- `y`: bits 7:4, the second register operand. -/
def fieldY (op : Word) : BitVec 4 := op.extractLsb' 4 4

/-- `d`: bits 3:0, the sub-operation selector. -/
def fieldD (op : Word) : BitVec 4 := op.extractLsb' 0 4

/-- `kk`: bits 7:0, the 8-bit immediate. -/
def fieldKK (op : Word) : Byte := op.extractLsb' 0 8

/-- `nnn`: bits 11:0, the 12-bit address. -/
def fieldNNN (op : Word) : Addr12 := op.extractLsb' 0 12

/-- A 4-bit field names a register (R72). -/
def regOf (f : BitVec 4) : Reg := ⟨f.toNat, f.isLt⟩

/-- The 4-bit field that names a register. -/
def fieldOf (x : Reg) : BitVec 4 := BitVec.ofFin x

/-! ### The decode table (R73) -/

/-- The operation tag: one name for each row of R73's table. -/
inductive Form where
  | halt | clearDisplay | ret | jump | call
  | skipEqImm | skipNeImm | skipEqReg | loadImm | addImm
  | copy | bitOr | bitAnd | bitXor | addReg
deriving DecidableEq, Repr

/-- The rows in the table's order. -/
def allForms : List Form :=
  [.halt, .clearDisplay, .ret, .jump, .call, .skipEqImm, .skipNeImm, .skipEqReg, .loadImm, .addImm] ++
  [.copy, .bitOr, .bitAnd, .bitXor, .addReg]

/-- The table's `match` column. -/
def formMatch : Form → Word
  | .halt => 0x0000#16
  | .clearDisplay => 0x00E0#16
  | .ret => 0x00EE#16
  | .jump => 0x1000#16
  | .call => 0x2000#16
  | .skipEqImm => 0x3000#16
  | .skipNeImm => 0x4000#16
  | .skipEqReg => 0x5000#16
  | .loadImm => 0x6000#16
  | .addImm => 0x7000#16
  | .copy => 0x8000#16
  | .bitOr => 0x8001#16
  | .bitAnd => 0x8002#16
  | .bitXor => 0x8003#16
  | .addReg => 0x8004#16

/-- The table's `mask` column. -/
def formMask : Form → Word
  | .halt | .clearDisplay | .ret => 0xFFFF#16
  | .jump | .call | .skipEqImm | .skipNeImm | .loadImm | .addImm => 0xF000#16
  | .skipEqReg | .copy | .bitOr | .bitAnd | .bitXor | .addReg => 0xF00F#16

/-- A word belongs to a row when `(op AND mask) == match`. -/
def formMatches (f : Form) (op : Word) : Bool := op &&& formMask f == formMatch f

/-- The row a word belongs to, if any. -/
def formOf (op : Word) : Option Form := allForms.find? fun f => formMatches f op

/-- The instruction a row's word stands for: its operand fields (R70-R72). -/
def buildForm (f : Form) (op : Word) : Instr :=
  match f with
  | .halt => .halt
  | .clearDisplay => .clearDisplay
  | .ret => .ret
  | .jump => .jump (fieldNNN op)
  | .call => .call (fieldNNN op)
  | .skipEqImm => .skipEqImm (regOf (fieldX op)) (fieldKK op)
  | .skipNeImm => .skipNeImm (regOf (fieldX op)) (fieldKK op)
  | .skipEqReg => .skipEqReg (regOf (fieldX op)) (regOf (fieldY op))
  | .loadImm => .loadImm (regOf (fieldX op)) (fieldKK op)
  | .addImm => .addImm (regOf (fieldX op)) (fieldKK op)
  | .copy => .copy (regOf (fieldX op)) (regOf (fieldY op))
  | .bitOr => .bitOr (regOf (fieldX op)) (regOf (fieldY op))
  | .bitAnd => .bitAnd (regOf (fieldX op)) (regOf (fieldY op))
  | .bitXor => .bitXor (regOf (fieldX op)) (regOf (fieldY op))
  | .addReg => .addReg (regOf (fieldX op)) (regOf (fieldY op))

/-- The decode result of R75: "a tagged-variant decode result (Known(Handler) | Unknown(opcode))". -/
inductive Decoded where
  | known (i : Instr)
  | unknown (op : Word)
deriving DecidableEq, Repr

/-- The decoder, total on every word and reading nothing else (R73, R75, R78). -/
def decode (op : Word) : Decoded :=
  match formOf op with
  | some f => .known (buildForm f op)
  | none => .unknown op

/-! ### Bytes (R54, R77) -/

/-- Big-endian: the first byte is bits 15:8, the second bits 7:0 (R54). -/
def wordOfBytes (hi lo : Byte) : Word := hi ++ lo

/-- The byte at the lower address (R54). -/
def hiByte (w : Word) : Byte := w.extractLsb' 8 8

/-- The byte at the higher address (R54). -/
def loByte (w : Word) : Byte := w.extractLsb' 0 8

/-- A word as it lies in memory (R54). -/
def bytesOfWord (w : Word) : List Byte := [hiByte w, loByte w]

/-- Why bytes do not begin with an instruction. -/
inductive DecodeReject where
  /-- The word is Unknown (R75). -/
  | unknownWord (op : Word)
  /-- Fewer than the two bytes every instruction has (R77). -/
  | truncated
deriving DecidableEq, Repr

/-- Decode the first two bytes of any byte list, and give the rest back (R77). -/
def decodeBytes : List Byte → Except DecodeReject (Instr × List Byte)
  | hi :: lo :: rest =>
    match decode (wordOfBytes hi lo) with
    | .known i => .ok (i, rest)
    | .unknown op => .error (.unknownWord op)
  | _ => .error .truncated

/-! ### Words as spec/opcode_table.json numbers them -/

/-- The one 16-bit word of a table row: its low `nbits` bits, every bit above them 0. -/
def tableWord (nbits w : Nat) : Word := BitVec.ofNat 16 (w % 2 ^ nbits)

/-- The instruction the decoder reads from a table word's bytes. -/
def decodeTableWord (nbits w : Nat) : Option Instr :=
  match decodeBytes (bytesOfWord (tableWord nbits w)) with
  | .ok (i, _) => some i
  | .error _ => none

/-! ### The encoder (R70, R73) -/

/-- `c ++ nnn` (R70). -/
def wordN (c : BitVec 4) (nnn : Addr12) : Word := c ++ nnn

/-- `c ++ x ++ kk` (R70). -/
def wordXK (c : BitVec 4) (x : Reg) (kk : Byte) : Word := wordN c (fieldOf x ++ kk)

/-- `c ++ x ++ y ++ d` (R70). -/
def wordXYD (c : BitVec 4) (x y : Reg) (d : BitVec 4) : Word := wordN c (fieldOf x ++ (fieldOf y ++ d))

/-- The word of an instruction: its fields in their places. -/
def encode : Instr → Word
  | .halt => 0x0000#16
  | .clearDisplay => 0x00E0#16
  | .ret => 0x00EE#16
  | .jump nnn => wordN 0x1#4 nnn
  | .call nnn => wordN 0x2#4 nnn
  | .skipEqImm x kk => wordXK 0x3#4 x kk
  | .skipNeImm x kk => wordXK 0x4#4 x kk
  | .skipEqReg x y => wordXYD 0x5#4 x y 0x0#4
  | .loadImm x kk => wordXK 0x6#4 x kk
  | .addImm x kk => wordXK 0x7#4 x kk
  | .copy x y => wordXYD 0x8#4 x y 0x0#4
  | .bitOr x y => wordXYD 0x8#4 x y 0x1#4
  | .bitAnd x y => wordXYD 0x8#4 x y 0x2#4
  | .bitXor x y => wordXYD 0x8#4 x y 0x3#4
  | .addReg x y => wordXYD 0x8#4 x y 0x4#4

/-- An instruction as it lies in memory: always 2 bytes (R77). -/
def encodeBytes (i : Instr) : List Byte := bytesOfWord (encode i)

/-- The row an instruction belongs to. -/
def instrForm : Instr → Form
  | .halt => .halt
  | .clearDisplay => .clearDisplay
  | .ret => .ret
  | .jump _ => .jump
  | .call _ => .call
  | .skipEqImm _ _ => .skipEqImm
  | .skipNeImm _ _ => .skipNeImm
  | .skipEqReg _ _ => .skipEqReg
  | .loadImm _ _ => .loadImm
  | .addImm _ _ => .addImm
  | .copy _ _ => .copy
  | .bitOr _ _ => .bitOr
  | .bitAnd _ _ => .bitAnd
  | .bitXor _ _ => .bitXor
  | .addReg _ _ => .addReg

end Sys2Proof
end

