-- ==== Sys2Proof/Config.lean ====
section
/-! DEFINITION. What is fixed for one machine (00_scope R5, R6): the memory and stack sizes, and the default of each parameter the host supplies. -/

namespace Sys2Proof.Config

/-- MEM_SIZE (R5). -/
def memSize : Nat := 4096

/-- ENTRY_PC where the host names none: 0x000, "the reference uses 0x000" (R6, D11).
DESIGN CHOICE, unsafe: log 3. -/
def entryPc : Word := 0x000#16

/-- INIT_V where the host seeds nothing: all zero (R6, R24, D12). -/
def initV : Vector Byte 16 := Vector.replicate 16 0#8

/-- What an unlisted address of memory reads as, so what State.reset's memory holds everywhere (R6, D13).
DESIGN CHOICE, unsafe: log 4. -/
def memFill : Byte := 0#8

end Sys2Proof.Config
end

