-- ==== Sys2Proof/Machine/State.lean ====
section
/-! DEFINITION. The machine's state as plain data (10_state R20-R34, 20_memory R50, 60_exceptions R185), the reasons a step can stop, and the state after reset (70_reset_and_hazards R210). -/

namespace Sys2Proof.Machine

/-- Memory: address and byte pairs, addresses strictly rising, no entry equal to `Config.memFill`, what an unlisted address reads as (R50; log 4). -/
abbrev Memory := List Host.Cell

/-- The four fatal errors, in the order of R180's codes 1 to 4. -/
inductive FaultKind where
  /-- "return executed with an empty call stack" (R181). -/
  | stackUnderflow
  /-- "call executed with the stack already at capacity (16 outstanding frames)" (R182). -/
  | stackOverflow
  /-- "decoded opcode does not match any entry" (R183). -/
  | unimplementedOpcode
  /-- "any memory index outside [0, 4096)"; only by fetch (R184). -/
  | outOfBoundsAccess
deriving DecidableEq, Repr

/-- The fault record of R185. Its `code` field is a function of `kind` and is computed from it (`faultCode`). -/
structure FaultRecord where
  /-- Which fatal error. -/
  kind : FaultKind
  /-- Address A of the word whose cycle faulted. -/
  pc : Word
  /-- The fetched word; none for an out-of-bounds fetch. -/
  opcode : Option Word
  /-- The out-of-range byte address; out-of-bounds only. -/
  addr : Option Word
deriving DecidableEq, Repr

/-- The run status: R210's value after construction, then the engine's three of R31 (log 5). -/
inductive Status where
  /-- "not yet running": from construction to the start of `run()` (R210). -/
  | notYetRunning
  /-- "the only non-terminal state". -/
  | running
  /-- Entered on decoding 0x0000. -/
  | halted
  /-- Entered on any fatal error. -/
  | faulted (r : FaultRecord)
deriving DecidableEq, Repr

/-- What the core can send to the display collaborator: one message (R193). -/
inductive Signal where
  | clearDisplay
deriving DecidableEq, Repr

/-- Machine State, the run status and the run's output. -/
structure State where
  /-- V0-VF (R20). -/
  V : Vector Byte 16
  /-- The program counter (R25). -/
  pc : Word
  /-- The stack pointer, 0 to 16 inclusive, 0 when empty (R29). -/
  sp : Fin 17
  /-- The 16 return-address slots (R30). -/
  S : Vector Word 16
  /-- The 4096 bytes of memory (R50). -/
  M : Memory
  /-- The run status (R31, R210). -/
  status : Status
  /-- The ClearDisplay signals of the run so far, oldest first (R34; log 7). -/
  signals : List Signal
deriving DecidableEq, Repr

/-- Why the machine takes no step. A fatal error of the core is NOT one of these: it is a next state whose status is `faulted` (R186; log 6). -/
inductive Fault where
  /-- Raised by `step` alone, before `run()` has started: a step is of a running machine (R100, R106; log 5). Safe: no state results. -/
  | notStarted
  /-- Raised by `step` alone, when the status is Halted: "the engine takes no step" (R105). Safe: the machine has stopped. -/
  | stoppedHalted
  /-- Raised by `step` alone, when the status is Faulted: "the engine takes no step" (R105). Safe: the machine has stopped. -/
  | stoppedFaulted (r : FaultRecord)
  /-- Raised by the host's `load` transaction alone, before a run, for an address outside memory (R52; log 9). Safe: no state results. -/
  | hostLoadOutOfBounds (a : Nat)
  /-- Raised by the host's transactions alone, when one of those whose time is "before run()", or a second `run`, comes once `run()` has started (R197; log 19). Safe: no state results. -/
  | hostNotBeforeRun
deriving DecidableEq, Repr

/-- No instruction of this core is refused. -/
inductive Refusal where
  /-- An instruction without a meaning, by its mnemonic; no arm of `exec` answers it. Safe. -/
  | notModelled (mnemonic : String)
deriving DecidableEq, Repr

/-- The state after construction, with nothing loaded: reset is construction (R210; log 3, 4, 5). -/
def State.reset : State where
  V := Config.initV
  pc := Config.entryPc
  sp := 0
  S := Vector.replicate 16 0#16
  M := []
  status := .notYetRunning
  signals := []

end Sys2Proof.Machine
end

