-- ==== Sys2Proof/Machine/Ops.lean ====
section
/-! DEFINITION. The shared operations: memory, the program counter, the call stack, the display signal, and taking a fatal error. -/

namespace Sys2Proof.Machine

/-! ### Memory (20_memory R50-R52) -/

/-- Every listed address lies above `b`, inside memory, in rising order, and no listed byte is the fill. -/
def wfFrom : Nat → Memory → Bool
  | _, [] => true
  | b, (a, v) :: rest => decide (b ≤ a) && decide (a < Config.memSize) && decide (v ≠ Config.memFill) && wfFrom (a + 1) rest

/-- The canonical form of a memory. -/
def Memory.wf (m : Memory) : Bool := wfFrom 0 m

/-- The byte at an address: `M[a]` of R9. -/
def Memory.read : Memory → Nat → Byte
  | [], _ => Config.memFill
  | (b, w) :: rest, a => if a = b then w else Memory.read rest a

/-- `M[a] <- v`, in canonical form. -/
def Memory.write : Memory → Nat → Byte → Memory
  | [], a, v => if v = Config.memFill then [] else [(a, v)]
  | (b, w) :: rest, a, v =>
    if a < b then (if v = Config.memFill then (b, w) :: rest else (a, v) :: (b, w) :: rest)
    else if a = b then (if v = Config.memFill then rest else (a, v) :: rest)
    else (b, w) :: Memory.write rest a v

/-- `MemRead(a, 1)` (R51): the error is the offending address. -/
def memRead (m : Memory) (a : Nat) : Except Nat Byte :=
  if a < Config.memSize then .ok (Memory.read m a) else .error a

/-- `MemWrite(a, 1, v)` (R52): the error is the offending address. -/
def memWrite (m : Memory) (a : Nat) (v : Byte) : Except Nat Memory :=
  if a < Config.memSize then .ok (Memory.write m a v) else .error a

/-- The byte of the state's memory at an address. -/
def State.byteAt (s : State) (a : Nat) : Byte := Memory.read s.M a

/-! ### The program counter (10_state R25-R28) -/

/-- `pc <- pc + 2`: the engine's advance (40_engine R102) and a skip's second one (43_skip R139). -/
def State.advance (s : State) : State := { s with pc := s.pc + 2#16 }

/-- `pc <- target` (R9). -/
def State.setPc (s : State) (target : Word) : State := { s with pc := target }

/-- `pc <- zext_16(nnn)` (R71, R129). -/
def State.jumpTo (s : State) (nnn : Addr12) : State := s.setPc (nnn.setWidth 16)

/-- Address A of the instruction whose handler runs: the handler's `pc` is A + 2 (R26, R102). DEDUCED: log 2. -/
def State.instrAddr (s : State) : Word := s.pc - 2#16

/-! ### The call stack (10_state R29, R30) -/

/-- Slot `i` of the call stack. -/
def State.slot (s : State) (i : Fin 16) : Word := s.S[i]

/-- `S[sp] <- w; sp <- sp + 1`, or none when `sp = 16` (42_control_flow R132). -/
def State.push? (s : State) (w : Word) : Option State :=
  if h : s.sp.val < 16 then
    some { s with S := s.S.set s.sp.val w h, sp := ⟨s.sp.val + 1, by omega⟩ }
  else none

/-- `sp <- sp - 1`, with the value of `S[sp]` after it, or none when `sp = 0`; the slot keeps its value (42_control_flow R130, D4). -/
def State.pop? (s : State) : Option (Word × State) :=
  if h : 0 < s.sp.val then
    some (s.S[s.sp.val - 1]'(by omega), { s with sp := ⟨s.sp.val - 1, by omega⟩ })
  else none

/-! ### The display and the status -/

/-- `emit ClearDisplay` (R10, R121, R193): it always succeeds (D22). -/
def State.emitClear (s : State) : State := { s with signals := s.signals ++ [.clearDisplay] }

/-- The start of `run()`: the status becomes Running (R31, R210, R197). -/
def State.startRun (s : State) : State := { s with status := .running }

/-- `halt` (R10, R120). -/
def State.enterHalted (s : State) : State := { s with status := .halted }

/-! ### Taking a fatal error (60_exceptions R180-R186) -/

/-- The numeric code of a kind (R180, D9). -/
def faultCode : FaultKind → Nat
  | .stackUnderflow => 1
  | .stackOverflow => 2
  | .unimplementedOpcode => 3
  | .outOfBoundsAccess => 4

/-- `raise Fatal(kind, info)` (R186): `status <- Faulted(record)` and "Nothing else changes".
There is no return from it beside this: "No instruction returns from a fatal error" (R188). -/
def State.raiseFatal (s : State) (r : FaultRecord) : State := { s with status := .faulted r }

/-- A fatal error raised by a handler: the record names A and the fetched word (R181, R182). -/
def State.raiseInHandler (s : State) (kind : FaultKind) (op : Word) : State :=
  s.raiseFatal { kind := kind, pc := s.instrAddr, opcode := some op, addr := none }

/-- UnimplementedOpcode, raised by the engine after the advance (R183, R104). -/
def State.raiseUnimplemented (s : State) (op : Word) : State :=
  s.raiseInHandler .unimplementedOpcode op

/-- OutOfBoundsAccess, raised by a fetch before the advance, for the byte address `a` (R184, R61). -/
def State.raiseFetchFault (s : State) (a : Nat) : State :=
  s.raiseFatal { kind := .outOfBoundsAccess, pc := s.pc, opcode := none, addr := some (BitVec.ofNat 16 a) }

end Sys2Proof.Machine
end

