-- ==== Sys2Proof/Machine/Operands.lean ====
section
/-! DEFINITION. The operand forms (10_state R20-R22, 30_encoding R71, R72): a register read, a register write, and the compare a skip makes. An immediate `kk` is used as it stands, at register width. -/

namespace Sys2Proof.Machine

/-- `V[x]`: no register is hardwired (R20). -/
def State.readV (s : State) (x : Reg) : Byte := s.V[x]

/-- `V[x] <- b`: a plain write, to VF as to any register (R21). -/
def State.writeV (s : State) (x : Reg) (b : Byte) : State := { s with V := s.V.set x.val b }

/-- `V[x] <- V[x] op V[y]`: both operands are read before the write (45_alu R160). -/
def State.aluWrite (s : State) (f : Byte → Byte → Byte) (x y : Reg) : State :=
  s.writeV x (f (s.readV x) (s.readV y))

/-- A skip adds 2 more to `pc` when its condition holds; the target is not checked (43_skip R139). -/
def State.skipIf (s : State) (cond : Bool) : State := if cond then s.advance else s

end Sys2Proof.Machine
end

