-- ==== Sys2Proof/Machine/Flags.lean ====
section
/-! DEFINITION. The one flag: the carry of `8xy4`, kept in VF (10_state R32, 45_alu R166). -/

namespace Sys2Proof.Machine

/-- The exact unsigned sum, 0..510 (R165, R168). -/
def exactSum (a b : Byte) : Nat := a.toNat + b.toNat

/-- The sum modulo 256 (R168). -/
def wrappedSum (a b : Byte) : Byte := BitVec.ofNat 8 (exactSum a b % 256)

/-- The carry: 1 when the exact sum is above 255, otherwise 0 (R166). -/
def carryOf (a b : Byte) : Byte := if exactSum a b > 255 then 1#8 else 0#8

/-- `V[0xF] <- carry` (R165). -/
def State.writeCarry (s : State) (c : Byte) : State := s.writeV regVF c

end Sys2Proof.Machine
end

