-- ==== Sys2Proof/Machine/Alu.lean ====
section
/-! DEFINITION. ALU register-register operations (45_alu): `d` selects one of five. -/

namespace Sys2Proof.Machine

/-- copy, `8xy0` (R161). -/
def execCopy (x y : Reg) (s : State) : Host.Outcome State Fault Refusal :=
  .next (s.aluWrite (fun _ b => b) x y)

/-- bitwise-or, `8xy1` (R162): VF is not reset. -/
def execBitOr (x y : Reg) (s : State) : Host.Outcome State Fault Refusal :=
  .next (s.aluWrite (fun a b => a ||| b) x y)

/-- bitwise-and, `8xy2` (R163): VF is not reset. -/
def execBitAnd (x y : Reg) (s : State) : Host.Outcome State Fault Refusal :=
  .next (s.aluWrite (fun a b => a &&& b) x y)

/-- bitwise-xor, `8xy3` (R164): VF is not reset. -/
def execBitXor (x y : Reg) (s : State) : Host.Outcome State Fault Refusal :=
  .next (s.aluWrite (fun a b => a ^^^ b) x y)

/-- add-registers, `8xy4` (R165): the sum to Vx, then the carry to VF, "written last" (D5). -/
def execAddReg (x y : Reg) (s : State) : Host.Outcome State Fault Refusal :=
  .next ((s.aluWrite wrappedSum x y).writeCarry (carryOf (s.readV x) (s.readV y)))

end Sys2Proof.Machine
end

