-- ==== Sys2Proof/Machine/Control.lean ====
section
/-! DEFINITION. Control transfer (42_control_flow): return, jump, call. -/

namespace Sys2Proof.Machine

/-- return, `00EE` (R130): StackUnderflow when `sp = 0`, checked before any write. -/
def execRet (s : State) : Host.Outcome State Fault Refusal :=
  match s.pop? with
  | some (target, t) => .next (t.setPc target)
  | none => .next (s.raiseInHandler .stackUnderflow (encode .ret))

/-- jump, `1nnn` (R131). -/
def execJump (nnn : Addr12) (s : State) : Host.Outcome State Fault Refusal := .next (s.jumpTo nnn)

/-- call, `2nnn` (R132): StackOverflow when `sp = 16`, checked before any write; the pushed value is A + 2. -/
def execCall (nnn : Addr12) (s : State) : Host.Outcome State Fault Refusal :=
  match s.push? s.pc with
  | some t => .next (t.jumpTo nnn)
  | none => .next (s.raiseInHandler .stackOverflow (encode (.call nnn)))

end Sys2Proof.Machine
end

