-- ==== Sys2Proof/Machine/Immediate.lean ====
section
/-! DEFINITION. Register-immediate operations (44_immediate). -/

namespace Sys2Proof.Machine

/-- load-immediate, `6xkk` (R150). -/
def execLoadImm (x : Reg) (kk : Byte) (s : State) : Host.Outcome State Fault Refusal :=
  .next (s.writeV x kk)

/-- add-immediate, `7xkk` (R151): the carry is not reported to VF. -/
def execAddImm (x : Reg) (kk : Byte) (s : State) : Host.Outcome State Fault Refusal :=
  .next (s.writeV x (wrappedSum (s.readV x) kk))

end Sys2Proof.Machine
end

