-- ==== Sys2Proof/Machine/Skip.lean ====
section
/-! DEFINITION. Conditional skips (43_skip): unsigned 8-bit equality. -/

namespace Sys2Proof.Machine

/-- skip-if-equal-immediate, `3xkk` (R140). -/
def execSkipEqImm (x : Reg) (kk : Byte) (s : State) : Host.Outcome State Fault Refusal :=
  .next (s.skipIf (s.readV x == kk))

/-- skip-if-not-equal-immediate, `4xkk` (R141). -/
def execSkipNeImm (x : Reg) (kk : Byte) (s : State) : Host.Outcome State Fault Refusal :=
  .next (s.skipIf (s.readV x != kk))

/-- skip-if-equal-registers, `5xy0` (R142): "must compare Vx to Vy, not Vx to the raw y nibble". -/
def execSkipEqReg (x y : Reg) (s : State) : Host.Outcome State Fault Refusal :=
  .next (s.skipIf (s.readV x == s.readV y))

end Sys2Proof.Machine
end

