-- ==== Sys2Proof/Machine/System.lean ====
section
/-! DEFINITION. System words (41_system). Every meaning starts from `pc = A + 2`, the value the engine's advance gave it. -/

namespace Sys2Proof.Machine

/-- halt, `0000` (R120): `pc` stays at A + 2 (D3). -/
def execHalt (s : State) : Host.Outcome State Fault Refusal := .next s.enterHalted

/-- clear-display, `00E0` (R121). -/
def execClearDisplay (s : State) : Host.Outcome State Fault Refusal := .next s.emitClear

end Sys2Proof.Machine
end

