-- ==== Sys2Proof/Machine/Dispatch.lean ====
section
/-! DEFINITION. Dispatch: one meaning per instruction (40_engine R104). -/

namespace Sys2Proof.Machine

/-- The handler of an instruction, run on the state after the engine's advance (40_engine R100, R104). -/
def exec (i : Instr) (s : State) : Host.Outcome State Fault Refusal :=
  match i with
  | .halt => Sys2Proof.Machine.execHalt s
  | .clearDisplay => Sys2Proof.Machine.execClearDisplay s
  | .ret => Sys2Proof.Machine.execRet s
  | .jump nnn => Sys2Proof.Machine.execJump nnn s
  | .call nnn => Sys2Proof.Machine.execCall nnn s
  | .skipEqImm x kk => Sys2Proof.Machine.execSkipEqImm x kk s
  | .skipNeImm x kk => Sys2Proof.Machine.execSkipNeImm x kk s
  | .skipEqReg x y => Sys2Proof.Machine.execSkipEqReg x y s
  | .loadImm x kk => Sys2Proof.Machine.execLoadImm x kk s
  | .addImm x kk => Sys2Proof.Machine.execAddImm x kk s
  | .copy x y => Sys2Proof.Machine.execCopy x y s
  | .bitOr x y => Sys2Proof.Machine.execBitOr x y s
  | .bitAnd x y => Sys2Proof.Machine.execBitAnd x y s
  | .bitXor x y => Sys2Proof.Machine.execBitXor x y s
  | .addReg x y => Sys2Proof.Machine.execAddReg x y s

end Sys2Proof.Machine
end

