-- ==== Sys2Proof/Machine/Fetch.lean ====
section
/-! DEFINITION. Fetching an instruction word (40_engine R101, 20_memory R61), and where the next word is fetched from. -/

namespace Sys2Proof.Machine

/-- The byte at `pc`, then the byte at `pc + 1`, each bound-checked, big-endian (R101, R54): the error is the first address outside memory. -/
def fetch (s : State) : Except Nat Word :=
  match memRead s.M s.pc.toNat with
  | .error a => .error a
  | .ok hi =>
    match memRead s.M (s.pc.toNat + 1) with
    | .error a => .error a
    | .ok lo => .ok (wordOfBytes hi lo)

/-- The state made ready to fetch: running, and at the default entry where no word fits at `pc` (log 8). -/
def State.readyToFetch (s : State) : State :=
  { s.startRun with pc := if s.pc.toNat + 1 < Config.memSize then s.pc else Config.entryPc }

/-- Place a word in memory at `pc`, big-endian (R54). -/
def State.placeWordAtPc (s : State) (w : Word) : State :=
  { s with M := Memory.write (Memory.write s.M s.pc.toNat (hiByte w)) (s.pc.toNat + 1) (loByte w) }

end Sys2Proof.Machine
end

