-- ==== Sys2Proof/Machine/Step.lean ====
section
/-! DEFINITION. One step of the engine (40_engine R100-R105). -/

namespace Sys2Proof.Machine

/-- One cycle: fetch, advance, decode, dispatch (R100). -/
def cycle (s : State) : Host.Outcome State Fault Refusal :=
  match fetch s with
  | .error a => .next (s.raiseFetchFault a)
  | .ok op =>
    match decode op with
    | .unknown w => .next (s.advance.raiseUnimplemented w)
    | .known i => exec i s.advance

/-- One step: a cycle when Running ("require status = Running", R100); none before `run()` (R210; log 5), and "When status is Halted or Faulted, the engine takes no step" (R105; log 6). -/
def step (s : State) : Host.Outcome State Fault Refusal :=
  match s.status with
  | .notYetRunning => .fault .notStarted
  | .running => cycle s
  | .halted => .fault .stoppedHalted
  | .faulted r => .fault (.stoppedFaulted r)

/-- The state with a table word placed where the next step fetches, and `run()` started (log 8). -/
def State.withFetchWord (s : State) (nbits w : Nat) : State :=
  s.readyToFetch.placeWordAtPc (tableWord nbits w)

end Sys2Proof.Machine
end

