-- ==== Sys2Proof/Machine/Assembler.lean ====
section
/-! DEFINITION. The assembler of 30_encoding R79-R81: source text to the bytes the host loads. It does not reach the machine (D10); where the spec is silent on a spelling, log 18. -/

namespace Sys2Proof.Machine

/-- An operand before labels are resolved (R79). -/
inductive AsmOperand where
  | reg (n : Nat)
  | num (n : Nat)
  | label (name : List Char)
deriving DecidableEq, Repr

/-- One item of a source line (R79). -/
inductive AsmItem where
  /-- A label definition: its value is the address where it stands. -/
  | label (name : List Char)
  /-- An instruction: exactly one word (R81). -/
  | instr (mnemonic : List Char) (operands : List AsmOperand)
  /-- `.word w`, big-endian. -/
  | word (n : Nat)
  /-- `.byte b`. -/
  | byte (n : Nat)
deriving DecidableEq, Repr

/-- Why a source text is refused. -/
inductive AsmError where
  /-- An instruction that its check refuses. -/
  | source (e : SrcError)
  /-- An operand that is no register, no number and no label of the text. -/
  | undefinedLabel (name : List Char)
  /-- A `.word` above 0xFFFF or a `.byte` above 0xFF. -/
  | dataRange
  /-- A directive without exactly one number. A label is none here: DESIGN CHOICE (log 18). -/
  | directiveShape
deriving DecidableEq, Repr

/-- A hex digit "in upper or lower case". -/
def hexDigit (c : Char) : Option Nat :=
  let n := c.toNat
  if 48 ≤ n ∧ n ≤ 57 then some (n - 48)
  else if 65 ≤ n ∧ n ≤ 70 then some (n - 55)
  else if 97 ≤ n ∧ n ≤ 102 then some (n - 87)
  else none

/-- The value of digits in a base. -/
def digitsValue (base : Nat) : List Char → Nat → Option Nat
  | [], acc => some acc
  | c :: cs, acc =>
    match hexDigit c with
    | some d => if d < base then digitsValue base cs (acc * base + d) else none
    | none => none

/-- A number "in decimal or as 0x hex".
DESIGN CHOICE (log 18): the prefix is a lower case `0x`, hex digits are of either case, leading zeros are allowed, and the operands of `.word` and `.byte` are spelled like `nnn` and `kk`. -/
def parseNumber : List Char → Option Nat
  | [] => none
  | ['0', 'x'] => none
  | '0' :: 'x' :: cs => digitsValue 16 cs 0
  | cs => digitsValue 10 cs 0

/-- An operand: `V` and one hex digit, a number, or a label.
DESIGN CHOICE (log 18): a text of the form of a register or a number is never a label. -/
def parseOperand (t : List Char) : AsmOperand :=
  match t with
  | ['V', c] =>
    match hexDigit c with
    | some n => .reg n
    | none => .label t
  | _ =>
    match parseNumber t with
    | some n => .num n
    | none => .label t

/-- Cut a line at spaces and commas: "Commas separate operands, and the space after a comma is optional".
DESIGN CHOICE (log 18): a space separates operands like a comma, and empty places between separators are passed over. -/
def tokensOf : List Char → List Char → List (List Char)
  | [], cur => if cur = [] then [] else [cur.reverse]
  | c :: cs, cur =>
    if c = ' ' ∨ c = ',' then (if cur = [] then tokensOf cs [] else cur.reverse :: tokensOf cs [])
    else tokensOf cs (c :: cur)

/-- A token `name:` defines a label. DESIGN CHOICE (log 18): R79 gives no spelling of a definition. -/
def labelDef (t : List Char) : Option (List Char) :=
  match t.reverse with
  | ':' :: cs => some cs.reverse
  | _ => none

/-- The item the tokens after a label make.
DESIGN CHOICE (log 18): R79 gives a label for `nnn` only and does not say whether one may stand for the value of `.word` or `.byte`; here it may not, and a directive takes exactly one number. -/
def parseItem : List (List Char) → Except AsmError (List AsmItem)
  | [] => .ok []
  | ['.', 'w', 'o', 'r', 'd'] :: rest =>
    match rest.map parseOperand with
    | [.num n] => .ok [.word n]
    | _ => .error .directiveShape
  | ['.', 'b', 'y', 't', 'e'] :: rest =>
    match rest.map parseOperand with
    | [.num n] => .ok [.byte n]
    | _ => .error .directiveShape
  | m :: rest => .ok [.instr m (rest.map parseOperand)]

/-- The items of one line: a label, if the line begins with one, then an item. -/
def parseLine (line : List Char) : Except AsmError (List AsmItem) :=
  match tokensOf line [] with
  | [] => .ok []
  | t :: rest =>
    match labelDef t with
    | some name => (parseItem rest).map (AsmItem.label name :: ·)
    | none => parseItem (t :: rest)

/-- How many bytes an item lays down (R77, R79). -/
def itemSize : AsmItem → Nat
  | .label _ => 0
  | .instr _ _ => 2
  | .word _ => 2
  | .byte _ => 1

/-- The labels of a text that begins at address `a`.
DESIGN CHOICE (log 18): a label may be used before its definition, and of two definitions the first counts (`resolveOperand`). -/
def labelsFrom : Nat → List AsmItem → List (List Char × Nat)
  | _, [] => []
  | a, .label name :: rest => (name, a) :: labelsFrom a rest
  | a, item :: rest => labelsFrom (a + itemSize item) rest

/-- An operand with its label's value.
DESIGN CHOICE (log 18): R79 gives a label for `nnn` only; here a label may stand for any number of an instruction, so also for a `kk`, where its value must fit like a number's. -/
def resolveOperand (table : List (List Char × Nat)) : AsmOperand → Except AsmError SrcOperand
  | .reg n => .ok (.reg n)
  | .num n => .ok (.num n)
  | .label name =>
    match table.find? fun row => row.1 = name with
    | some row => .ok (.num row.2)
    | none => .error (.undefinedLabel name)

/-- Operands with their labels' values. -/
def resolveOperands (table : List (List Char × Nat)) : List AsmOperand → Except AsmError (List SrcOperand)
  | [] => .ok []
  | o :: rest =>
    match resolveOperand table o with
    | .error e => .error e
    | .ok r => (resolveOperands table rest).map (r :: ·)

/-- The bytes of one item: "never a truncation" (R79). -/
def assembleItem (table : List (List Char × Nat)) : AsmItem → Except AsmError (List Byte)
  | .label _ => .ok []
  | .instr m ops =>
    match resolveOperands table ops with
    | .error e => .error e
    | .ok srcOps =>
      match SrcInstr.check { mnemonic := String.ofList m, operands := srcOps } with
      | .ok i => .ok (encodeBytes i)
      | .error e => .error (.source e)
  | .word n => if n < 65536 then .ok (bytesOfWord (BitVec.ofNat 16 n)) else .error .dataRange
  | .byte n => if n < 256 then .ok [BitVec.ofNat 8 n] else .error .dataRange

/-- The bytes of items in order. -/
def assembleItems (table : List (List Char × Nat)) : List AsmItem → Except AsmError (List Byte)
  | [] => .ok []
  | item :: rest =>
    match assembleItem table item with
    | .error e => .error e
    | .ok bs => (assembleItems table rest).map (bs ++ ·)

/-- The items of lines in order. -/
def parseLines : List (List Char) → Except AsmError (List AsmItem)
  | [] => .ok []
  | line :: rest =>
    match parseLine line with
    | .error e => .error e
    | .ok items => (parseLines rest).map (items ++ ·)

/-- A source text that begins at address `origin`, as the bytes the host loads there. -/
def assemble (origin : Nat) (lines : List String) : Except AsmError (List Byte) :=
  match parseLines (lines.map String.toList) with
  | .error e => .error e
  | .ok items => assembleItems (labelsFrom origin items) items

end Sys2Proof.Machine
end

