-- ==== Sys2Proof/Machine/HostPort.lean ====
section
/-! DEFINITION. The host's transactions before `run()` (60_exceptions R197, 70_reset_and_hazards R210-R212). After the run the host reads the fields of State as they stand (R36). -/

namespace Sys2Proof.Machine

/-- The outcome of one transaction handed to the next; a stop ends the sequence. -/
def andThen (o : Host.Outcome State Fault Refusal) (next : State → Host.Outcome State Fault Refusal) : Host.Outcome State Fault Refusal :=
  match o with
  | .next s => next s
  | .fault f => .fault f
  | .refused r => .refused r

/-- A transaction whose time is "before `run()`" (R197): at any other time no state results (log 19). -/
def beforeRun (s : State) (result : Host.Outcome State Fault Refusal) : Host.Outcome State Fault Refusal :=
  match s.status with
  | .notYetRunning => result
  | .running | .halted | .faulted _ => .fault .hostNotBeforeRun

/-- construct: registers and stack zeroed, `sp = 0`, not yet running (R210). -/
def hostConstruct : State := State.reset

/-- set-entry: `pc <- ENTRY_PC`, any 16-bit value (R211). -/
def hostSetEntry (entry : Word) (s : State) : Host.Outcome State Fault Refusal := beforeRun s (.next (s.setPc entry))

/-- pre-seed: `V[i] <- INIT_V[i]` (R24). -/
def hostPreSeed (x : Reg) (b : Byte) (s : State) : Host.Outcome State Fault Refusal := beforeRun s (.next (s.writeV x b))

/-- pre-seed, for each register of a list. -/
def hostPreSeedRegs (seed : Vector Byte 16) : List Reg → State → Host.Outcome State Fault Refusal
  | [], s => .next s
  | x :: rest, s => andThen (hostPreSeed x seed[x] s) (hostPreSeedRegs seed rest)

/-- load: `MemWrite(a, 1, v)` for one byte of the image (R52); outside memory no state results (log 9). -/
def hostLoad (a : Nat) (b : Byte) (s : State) : Host.Outcome State Fault Refusal :=
  beforeRun s <|
    match memWrite s.M a b with
    | .ok m => .next { s with M := m }
    | .error e => .fault (.hostLoadOutOfBounds e)

/-- load, for consecutive bytes from address `a`. -/
def hostLoadBytes : Nat → List Byte → State → Host.Outcome State Fault Refusal
  | _, [], s => .next s
  | a, b :: rest, s => andThen (hostLoad a b s) (hostLoadBytes (a + 1) rest)

/-- run, "once": the status becomes Running (R197, R31). The loop it starts is `runFor`. -/
def hostRun (s : State) : Host.Outcome State Fault Refusal := beforeRun s (.next s.startRun)

/-- The boot of R212 in its order: construct, load a program of consecutive bytes, set the entry, pre-seed every register, run. -/
def hostBoot (entry : Word) (seed : Vector Byte 16) (origin : Nat) (program : List Byte) : Host.Outcome State Fault Refusal :=
  andThen (hostLoadBytes origin program hostConstruct) fun s =>
  andThen (hostSetEntry entry s) fun s =>
  andThen (hostPreSeedRegs seed (List.finRange 16) s) hostRun

/-- The number of clear signals sent (R197 inspect). -/
def signalCount (s : State) : Nat := s.signals.length

/-- `n` bytes of an image from address `a`, in canonical form. -/
def imageFrom (image : Nat → Byte) : Nat → Nat → Memory
  | 0, _ => []
  | n + 1, a => if image a = Config.memFill then imageFrom image n (a + 1) else (a, image a) :: imageFrom image n (a + 1)

/-- The memory that holds MEM_INIT: all 4096 bytes are the image's (R50, D13). -/
def Memory.ofImage (image : Nat → Byte) : Memory := imageFrom image Config.memSize 0

/-- The state at the first fetch, for every value of the model's parameters ENTRY_PC, INIT_V and MEM_INIT (R6, R24, R50, R211). -/
def State.init (entry : Word) (seed : Vector Byte 16) (image : Nat → Byte) : State :=
  { State.reset.startRun with pc := entry, V := seed, M := Memory.ofImage image }

end Sys2Proof.Machine
end

