-- ==== Sys2Proof/Machine/Run.lean ====
section
/-! DEFINITION. The run loop (40_engine R106) and what ends it (70_reset_and_hazards R216). -/

namespace Sys2Proof.Machine

/-- How a bounded look at `run()` ends. -/
inductive RunResult where
  /-- `run()` has not been called (R210; DEDUCED: log 5). -/
  | notStarted (s : State)
  /-- `run()` has returned: the status is Halted or Faulted (R106, R216). -/
  | returned (s : State)
  /-- The bound is used up and the run goes on: not an end of the run (D21). -/
  | stillRunning (s : State)
deriving DecidableEq, Repr

/-- What a look at the run shows at a state: its status alone says. -/
def runSeenAt (s : State) : RunResult :=
  match s.status with
  | .notYetRunning => .notStarted s
  | .running => .stillRunning s
  | .halted => .returned s
  | .faulted _ => .returned s

/-- "It runs step() while status = Running" (R106), for at most `n` steps. -/
def runFor : Nat → State → RunResult
  | 0, s => runSeenAt s
  | n + 1, s =>
    match step s with
    | .next t => runFor n t
    | .fault _ => runSeenAt s
    | .refused _ => runSeenAt s

end Sys2Proof.Machine
end

