-- ==== Sys2Proof/Safety.lean ====
section
/-! DEFINITION. What counts as a good state and a safe run, in the terms the statements use. -/

namespace Sys2Proof.Machine

/-! ### Frames: what two states share -/

/-- Every register outside `written` reads the same. -/
def SameRegsBut (written : List Reg) (s t : State) : Prop := ∀ r : Reg, r ∉ written → t.readV r = s.readV r

/-- `sp` and every slot of the call stack are the same. -/
def SameStack (s t : State) : Prop := t.sp = s.sp ∧ ∀ i : Fin 16, t.slot i = s.slot i

/-- Every byte of memory reads the same. -/
def SameMemory (s t : State) : Prop := ∀ a : Nat, t.byteAt a = s.byteAt a

/-- The run status and the signals sent are the same. -/
def SameStatus (s t : State) : Prop := t.status = s.status ∧ t.signals = s.signals

/-! ### Fetching at a state -/

/-- The word at the program counter is `op`, and both its bytes lie in memory (20_memory R54, R61). -/
def FetchesWord (s : State) (op : Word) : Prop :=
  s.pc.toNat + 1 < Config.memSize ∧ op = wordOfBytes (s.byteAt s.pc.toNat) (s.byteAt (s.pc.toNat + 1))

/-- The machine is Running and the word at the program counter decodes to `i`. -/
def AboutToRun (s : State) (i : Instr) : Prop :=
  s.status = .running ∧ ∃ op, FetchesWord s op ∧ decode op = .known i

/-! ### Which registers an instruction reads and writes (10_state R22) -/

/-- The "reads" column of R22. -/
def regsRead : Instr → List Reg
  | .halt | .clearDisplay | .ret | .jump _ | .call _ => []
  | .skipEqImm x _ | .skipNeImm x _ => [x]
  | .skipEqReg x y => [x, y]
  | .loadImm _ _ => []
  | .addImm x _ => [x]
  | .copy _ y => [y]
  | .bitOr x y | .bitAnd x y | .bitXor x y | .addReg x y => [x, y]

/-- The "writes" column of R22. -/
def regsWritten : Instr → List Reg
  | .halt | .clearDisplay | .ret | .jump _ | .call _ => []
  | .skipEqImm _ _ | .skipNeImm _ _ | .skipEqReg _ _ => []
  | .loadImm x _ | .addImm x _ => [x]
  | .copy x _ | .bitOr x _ | .bitAnd x _ | .bitXor x _ => [x]
  | .addReg x _ => [x, regVF]

/-- The instructions R217 leaves out of straight-line code: jump, call, return, skip. -/
def redirectsPc : Instr → Bool
  | .ret | .jump _ | .call _ | .skipEqImm _ _ | .skipNeImm _ _ | .skipEqReg _ _ => true
  | .halt | .clearDisplay | .loadImm _ _ | .addImm _ _ | .copy _ _ | .bitOr _ _ | .bitAnd _ _ | .bitXor _ _ | .addReg _ _ => false

/-! ### Invariants -/

/-- A used slot holds a return address: what a call pushes after a fetch, 2 to 0x1000 (10_state R28). -/
def LiveSlotsOk (s : State) : Prop := ∀ i : Fin 16, i.val < s.sp.val → 2 ≤ (s.slot i).toNat ∧ (s.slot i).toNat ≤ 0x1000

/-- The record and the state a fatal error leaves (60_exceptions R184-R186): which fields are set, and where `pc` and `sp` stand. -/
def FaultShapeOk (s : State) : Prop :=
  ∀ r, s.status = .faulted r →
    match r.kind with
    | .outOfBoundsAccess => s.pc = r.pc ∧ r.opcode = none ∧ ∃ a : Word, r.addr = some a ∧ 0x1000 ≤ a.toNat
    | .unimplementedOpcode => s.pc = r.pc + 2#16 ∧ r.addr = none ∧ ∃ op : Word, r.opcode = some op ∧ decode op = .unknown op
    | .stackUnderflow => s.pc = r.pc + 2#16 ∧ r.addr = none ∧ r.opcode = some 0x00EE#16 ∧ s.sp = 0
    | .stackOverflow => s.pc = r.pc + 2#16 ∧ r.addr = none ∧ s.sp = 16 ∧ ∃ nnn : Addr12, r.opcode = some (encode (.call nnn))

/-- The machine's invariant: memory in canonical form, the used slots in range, a fatal error's state as its rules say. -/
structure State.Inv (s : State) : Prop where
  memoryWf : Memory.wf s.M = true
  liveSlots : LiveSlotsOk s
  faultShape : FaultShapeOk s

/-- The program counter is no larger than a skip from 0xFFE leaves it (10_state R28). -/
def PcInRange (s : State) : Prop := s.pc.toNat ≤ 0x1002

/-! ### Runs -/

/-- `n` steps lead from `s` to `t`, and every state that steps meets `P`. -/
def RunsTo (P : State → Prop) : Nat → State → State → Prop
  | 0, s, t => s = t
  | n + 1, s, t => P s ∧ ∃ u, step s = .next u ∧ RunsTo P n u t

/-- A safe run of `n` steps: no state on the way, nor the last one, is Faulted. -/
def SafeRun (n : Nat) (s : State) : Prop :=
  ∀ k ≤ n, ∀ t, RunsTo (fun _ => True) k s t → ∀ r, t.status ≠ .faulted r

end Sys2Proof.Machine
end

