-- ==== Sys2Proof/Certificates/Slice0/Obligations.lean ====
section
/-! DEFINITION. The statements for the provers. Each docstring names the rule of spec/ it formalises; where a clause rests on a decision the spec marks as its own, or on a choice of the model, it says so. Statements about a step hold at an odd `pc` too, by decision D2 (log 10). -/

open Sys2Proof Sys2Proof.Machine

/-! ### Encoding and decoding -/

/-- The 15 rows of 30_encoding R73 with the fields of R70: match, mask, and the instruction of a word. -/
def Sys2Proof.specRows : List (Word × Word × (Word → Instr)) :=
  [(0x0000#16, 0xFFFF#16, fun _ => .halt),
   (0x00E0#16, 0xFFFF#16, fun _ => .clearDisplay),
   (0x00EE#16, 0xFFFF#16, fun _ => .ret),
   (0x1000#16, 0xF000#16, fun w => .jump (w.extractLsb' 0 12)),
   (0x2000#16, 0xF000#16, fun w => .call (w.extractLsb' 0 12)),
   (0x3000#16, 0xF000#16, fun w => .skipEqImm (w.extractLsb' 8 4).toFin (w.extractLsb' 0 8)),
   (0x4000#16, 0xF000#16, fun w => .skipNeImm (w.extractLsb' 8 4).toFin (w.extractLsb' 0 8)),
   (0x5000#16, 0xF00F#16, fun w => .skipEqReg (w.extractLsb' 8 4).toFin (w.extractLsb' 4 4).toFin)] ++
  [(0x6000#16, 0xF000#16, fun w => .loadImm (w.extractLsb' 8 4).toFin (w.extractLsb' 0 8)),
   (0x7000#16, 0xF000#16, fun w => .addImm (w.extractLsb' 8 4).toFin (w.extractLsb' 0 8)),
   (0x8000#16, 0xF00F#16, fun w => .copy (w.extractLsb' 8 4).toFin (w.extractLsb' 4 4).toFin),
   (0x8001#16, 0xF00F#16, fun w => .bitOr (w.extractLsb' 8 4).toFin (w.extractLsb' 4 4).toFin),
   (0x8002#16, 0xF00F#16, fun w => .bitAnd (w.extractLsb' 8 4).toFin (w.extractLsb' 4 4).toFin),
   (0x8003#16, 0xF00F#16, fun w => .bitXor (w.extractLsb' 8 4).toFin (w.extractLsb' 4 4).toFin),
   (0x8004#16, 0xF00F#16, fun w => .addReg (w.extractLsb' 8 4).toFin (w.extractLsb' 4 4).toFin)]

/-- Words of every family, written from the examples of 41_system to 45_alu, decode to the instruction they stand for. -/
def Obligations.SpecWordsDecodeToTheirInstructions : Prop :=
  decode 0x0000#16 = .known .halt ∧
  decode 0x00E0#16 = .known .clearDisplay ∧
  decode 0x00EE#16 = .known .ret ∧
  decode 0x1204#16 = .known (.jump 0x204#12) ∧
  decode 0x2ABC#16 = .known (.call 0xABC#12) ∧
  decode 0x3005#16 = .known (.skipEqImm 0 0x05#8) ∧
  decode 0x4CFF#16 = .known (.skipNeImm 0xC 0xFF#8) ∧
  decode 0x5CD0#16 = .known (.skipEqReg 0xC 0xD) ∧
  decode 0x61FF#16 = .known (.loadImm 1 0xFF#8) ∧
  decode 0x7A80#16 = .known (.addImm 0xA 0x80#8) ∧
  decode 0x8CA0#16 = .known (.copy 0xC 0xA) ∧
  decode 0x8CB1#16 = .known (.bitOr 0xC 0xB) ∧
  decode 0x8CA2#16 = .known (.bitAnd 0xC 0xA) ∧
  decode 0x8CB3#16 = .known (.bitXor 0xC 0xB) ∧
  decode 0x8F14#16 = .known (.addReg 0xF 1)

/-- 30_encoding R73, R77: for every instruction with every operand, decoding its word, or its two bytes before any others, gives it back. -/
def Obligations.DecodeRecoversEveryEncodedInstruction : Prop :=
  ∀ (i : Instr) (rest : List Byte), decode (encode i) = .known i ∧ decodeBytes (encodeBytes i ++ rest) = .ok (i, rest)

/-- 30_encoding R73: each Known word is the one word of its instruction, so no bit of a word is dropped. -/
def Obligations.KnownWordIsTheEncodingOfItsInstruction : Prop :=
  ∀ (w : Word) (i : Instr), decode w = .known i → encode i = w

/-- 30_encoding R73, the table written out: a word that meets a row's match and mask decodes to that row's form, a word that meets none is Unknown, and no word meets two rows. -/
def Obligations.DecoderFollowsTheSpecTable : Prop :=
  (∀ row ∈ specRows, ∀ w : Word, w &&& row.2.1 = row.1 → decode w = .known (row.2.2 w)) ∧
  (∀ w : Word, (∀ row ∈ specRows, w &&& row.2.1 ≠ row.1) → decode w = .unknown w) ∧
  (∀ w : Word, (specRows.filter fun row => w &&& row.2.1 = row.1).length ≤ 1)

/-- 30_encoding R74, R75: the Unknown words, class by class, and no others. R75 derives its list from R73. -/
def Obligations.UnknownWordsAreExactlyThoseListed : Prop :=
  ∀ w : Word, decode w = .unknown w ↔
    (w.extractLsb' 12 4 = 0x0#4 ∧ w ≠ 0x0000#16 ∧ w ≠ 0x00E0#16 ∧ w ≠ 0x00EE#16) ∨
    (w.extractLsb' 12 4 = 0x5#4 ∧ w.extractLsb' 0 4 ≠ 0x0#4) ∨
    (w.extractLsb' 12 4 = 0x8#4 ∧ 5 ≤ (w.extractLsb' 0 4).toNat) ∨
    9 ≤ (w.extractLsb' 12 4).toNat

/-- 30_encoding R70: the four fields make up the word, and `kk` and `nnn` are views over them, as numbers. -/
def Obligations.FieldsMakeUpTheWord : Prop :=
  ∀ w : Word,
    w.toNat = (fieldC w).toNat * 4096 + (fieldX w).toNat * 256 + (fieldY w).toNat * 16 + (fieldD w).toNat ∧
    (fieldKK w).toNat = (fieldY w).toNat * 16 + (fieldD w).toNat ∧
    (fieldNNN w).toNat = (fieldX w).toNat * 256 + (fieldY w).toNat * 16 + (fieldD w).toNat

/-- The names an instruction's mnemonic may have: R79's, then its alias of R80 where it has one. -/
def Sys2Proof.specNames : Instr → List String
  | .halt => ["halt"]
  | .clearDisplay => ["clear-display", "CLS"]
  | .ret => ["return", "RET"]
  | .jump _ => ["jump", "JP"]
  | .call _ => ["call", "CALL"]
  | .skipEqImm _ _ => ["skip-if-equal-immediate", "SE"]
  | .skipNeImm _ _ => ["skip-if-not-equal-immediate", "SNE"]
  | .skipEqReg _ _ => ["skip-if-equal-registers", "SE"]
  | .loadImm _ _ => ["load-immediate", "LD"]
  | .addImm _ _ => ["add-immediate", "ADD"]
  | .copy _ _ => ["copy", "LD"]
  | .bitOr _ _ => ["bitwise-or", "OR"]
  | .bitAnd _ _ => ["bitwise-and", "AND"]
  | .bitXor _ _ => ["bitwise-xor", "XOR"]
  | .addReg _ _ => ["add-registers", "ADD"]

/-- The operands of R79's syntax column that stand for an instruction's own operand values. -/
def Sys2Proof.specOperands : Instr → List SrcOperand
  | .halt | .clearDisplay | .ret => []
  | .jump nnn | .call nnn => [.num nnn.toNat]
  | .skipEqImm x kk | .skipNeImm x kk | .loadImm x kk | .addImm x kk => [.reg x.val, .num kk.toNat]
  | .skipEqReg x y | .copy x y | .bitOr x y | .bitAnd x y | .bitXor x y | .addReg x y => [.reg x.val, .reg y.val]

/-- 30_encoding R79, R81: when the assembler accepts an instruction, the check of its mnemonic and resolved operands gives an instruction, and the two bytes laid down are that instruction's one word, with nothing left over. The syntax is the spec's own decision D10; how labels resolve where R79 is silent is the model's choice (log 18, DESIGN CHOICE). -/
def Obligations.MnemonicAssemblesToOneWord : Prop :=
  ∀ (table : List (List Char × Nat)) (m : List Char) (ops : List AsmOperand) (bs : List Byte),
    assembleItem table (.instr m ops) = .ok bs →
      ∃ srcOps i, resolveOperands table ops = .ok srcOps ∧ SrcInstr.check { mnemonic := String.ofList m, operands := srcOps } = .ok i ∧
        bs.length = 2 ∧ decodeBytes bs = .ok (i, [])

/-- 30_encoding R79: the operands of an accepted source instruction are the instruction's own operand values, none cut to its field: registers below 16, an `nnn` below 4096, a `kk` below 256. The syntax is the spec's own decision D10. -/
def Obligations.AcceptedSourceOperandsFitTheirFields : Prop :=
  ∀ (si : SrcInstr) (i : Instr), si.check = .ok i →
    si.operands = specOperands i ∧ (∀ n, .reg n ∈ si.operands → n < 16) ∧
    match i with
    | .jump _ | .call _ => ∀ n, .num n ∈ si.operands → n < 4096
    | _ => ∀ n, .num n ∈ si.operands → n < 256

/-- 30_encoding R79, R80: the check accepts as an instruction exactly its names with its operand values, so every value a field admits can be written and no other source stands for it. The syntax and the aliases are the spec's own decision D10; that no other spelling of a name is accepted, mnemonics being taken letter for letter, is the model's choice (log 18, DESIGN CHOICE). -/
def Obligations.SourceCheckAcceptsExactlyTheSpecSyntax : Prop :=
  ∀ (si : SrcInstr) (i : Instr), si.check = .ok i ↔ si.mnemonic ∈ specNames i ∧ si.operands = specOperands i

/-! ### The engine -/

/-- 40_engine R100-R104: when the bytes at the program counter decode to an instruction, the step is its meaning run on the state after the advance, which has moved `pc` by 2 and nothing else. That this holds at an odd `pc` too is decision D2 (log 10). -/
def Obligations.StepRunsTheDecodedInstruction : Prop :=
  ∀ (s : State) (op : Word) (i : Instr), s.status = .running → FetchesWord s op → decode op = .known i →
    step s = exec i s.advance ∧ s.advance.pc.toNat = s.pc.toNat + 2 ∧
    SameRegsBut [] s s.advance ∧ SameStack s s.advance ∧ SameMemory s s.advance ∧ SameStatus s s.advance

/-- 40_engine R101, 20_memory R54: a fetch answers the big-endian word of the two bytes at `pc` exactly when both lie in memory. That an odd `pc` is fetched like any other is decision D2 (log 10). -/
def Obligations.FetchReadsTwoBytesBigEndian : Prop :=
  ∀ (s : State) (op : Word), fetch s = .ok op ↔
    s.pc.toNat + 1 < 4096 ∧ op.toNat = (s.byteAt s.pc.toNat).toNat * 256 + (s.byteAt (s.pc.toNat + 1)).toNat

/-- 60_exceptions R183 with the state of R186 (decision D7, log 15), the record of R185 (D8, log 16) and its code 3 (D9, log 16): an Unknown word ends the run, reports itself and its address, and leaves `pc` advanced and all else as it was. -/
def Obligations.UnknownWordIsAFatalError : Prop :=
  ∀ (s : State) (op : Word), s.status = .running → FetchesWord s op → decode op = .unknown op →
    ∃ t, step s = .next t ∧
      t.status = .faulted { kind := .unimplementedOpcode, pc := s.pc, opcode := some op, addr := none } ∧
      faultCode .unimplementedOpcode = 3 ∧
      t.pc.toNat = s.pc.toNat + 2 ∧ SameRegsBut [] s t ∧ SameStack s t ∧ SameMemory s t ∧ t.signals = s.signals

/-- 20_memory R61, 60_exceptions R184 (decision D6, log 14): a fetch at 0xFFF or above is OutOfBoundsAccess for the first address outside memory, with nothing else changed. The state left is decision D7 (log 15), the record D8 and its code 4 D9 (log 16). -/
def Obligations.FetchOutsideMemoryIsAFatalError : Prop :=
  ∀ s : State, s.status = .running → 0xFFF ≤ s.pc.toNat →
    ∃ t, step s = .next t ∧
      t.status = .faulted { kind := .outOfBoundsAccess, pc := s.pc, opcode := none, addr := some (if s.pc = 0xFFF#16 then 0x1000#16 else s.pc) } ∧
      faultCode .outOfBoundsAccess = 4 ∧
      t.pc = s.pc ∧ SameRegsBut [] s t ∧ SameStack s t ∧ SameMemory s t ∧ t.signals = s.signals

/-- 40_engine R105: in a terminal status there is no step; R106: the run loop then returns the state as it stands. That the model's step answers the stops stoppedHalted and stoppedFaulted there is log 6 (DEDUCED). -/
def Obligations.NoStepFromATerminalStatus : Prop :=
  ∀ s : State,
    (s.status = .halted → step s = .fault .stoppedHalted) ∧
    (∀ r, s.status = .faulted r → step s = .fault (.stoppedFaulted r)) ∧
    ((s.status = .halted ∨ ∃ r, s.status = .faulted r) → (∀ t, step s ≠ .next t) ∧ ∀ n, runFor n s = .returned s)

/-- 40_engine R100, R104, R105: a running machine always takes a step, whatever its registers, memory and program counter, and no other machine takes one. That this holds before `run()` (70_reset_and_hazards R210) is log 5 (DEDUCED), and that the step answers no next state in a terminal status is log 6 (DEDUCED). -/
def Obligations.RunningMachineAlwaysSteps : Prop :=
  ∀ s : State, (s.status = .running → ∃ t, step s = .next t) ∧ (s.status ≠ .running → ∀ t, step s ≠ .next t)

/-- 60_exceptions R180, R189 (R189 is derived by the spec): each fatal error is raised exactly under its condition. That an out-of-range fetch is OutOfBoundsAccess is decision D6 (log 14). -/
def Obligations.EachFatalErrorExactlyUnderItsCondition : Prop :=
  ∀ s t : State, step s = .next t →
    ((∃ r, t.status = .faulted r ∧ r.kind = .outOfBoundsAccess) ↔ 0xFFF ≤ s.pc.toNat) ∧
    ((∃ r, t.status = .faulted r ∧ r.kind = .unimplementedOpcode) ↔ ∃ op, FetchesWord s op ∧ decode op = .unknown op) ∧
    ((∃ r, t.status = .faulted r ∧ r.kind = .stackUnderflow) ↔ AboutToRun s .ret ∧ s.sp = 0) ∧
    ((∃ r, t.status = .faulted r ∧ r.kind = .stackOverflow) ↔ (∃ nnn, AboutToRun s (.call nnn)) ∧ s.sp = 16)

/-- 60_exceptions R187, R186 (derived by the spec; decision D7, log 15): a step that ends Faulted has changed nothing but the status and, except for a fetch fault, the advance; the record's `pc` names the instruction and its `opcode` is the word fetched (decision D8, log 16). -/
def Obligations.FatalErrorsArePrecise : Prop :=
  ∀ (s t : State) (r : FaultRecord), step s = .next t → t.status = .faulted r →
    r.pc = s.pc ∧
    (r.kind = .outOfBoundsAccess → t.pc = s.pc) ∧
    (r.kind ≠ .outOfBoundsAccess → t.pc.toNat = s.pc.toNat + 2 ∧ ∃ op, r.opcode = some op ∧ FetchesWord s op) ∧
    SameRegsBut [] s t ∧ SameStack s t ∧ SameMemory s t ∧ t.signals = s.signals

/-- 41_system R120, 10_state R31: Halted is entered exactly by the word 0x0000. -/
def Obligations.OnlyTheZeroWordHalts : Prop :=
  ∀ s t : State, step s = .next t → (t.status = .halted ↔ FetchesWord s 0x0000#16)

/-- 10_state R34, 41_system R121: a step sends one signal when it runs `00E0` and none otherwise, so the sequence grows in program order. That a fatal error leaves it is decision D7 (log 15). -/
def Obligations.SignalsAreSentOnlyByClearDisplay : Prop :=
  ∀ s t : State, step s = .next t →
    (FetchesWord s 0x00E0#16 → t.signals = s.signals ++ [.clearDisplay]) ∧
    (¬ FetchesWord s 0x00E0#16 → t.signals = s.signals)

/-- 10_state R29, R30: no step but a call or a return moves `sp`; no step but a call writes a slot, and a call writes only slot `sp`. That a return leaves every slot is decision D4 (log 12), and that a fatal error leaves `sp` and every slot is decision D7 (log 15). -/
def Obligations.StackIsUsedOnlyByCallAndReturn : Prop :=
  ∀ s t : State, step s = .next t →
    (t.sp ≠ s.sp → (∃ nnn, AboutToRun s (.call nnn)) ∨ AboutToRun s .ret) ∧
    (∀ i : Fin 16, t.slot i ≠ s.slot i → (∃ nnn, AboutToRun s (.call nnn)) ∧ i.val = s.sp.val)

/-- 20_memory R60 (derived by the spec): memory is constant during a run. That a fatal error leaves it is decision D7 (log 15). -/
def Obligations.MemoryIsConstantDuringARun : Prop :=
  ∀ (n : Nat) (s t : State), RunsTo (fun _ => True) n s t → t.M = s.M ∧ SameMemory s t

/-- 20_memory R50, R56, R61: a step reads at most the bytes at `pc` and `pc + 1`; memory that agrees there gives the same step. The state after a fatal error is decision D7 (log 15). -/
def Obligations.StepReadsOnlyTheTwoFetchedBytes : Prop :=
  ∀ (s t : State) (m : Memory),
    Memory.read m s.pc.toNat = s.byteAt s.pc.toNat → Memory.read m (s.pc.toNat + 1) = s.byteAt (s.pc.toNat + 1) →
    step s = .next t → step { s with M := m } = .next { t with M := m }

/-- 10_state R30 and 93 I11 (decision D4, log 12): slots at or above `sp` never matter; stacks that agree below `sp` give steps that agree on everything but those slots. The state after a fatal error is decision D7 (log 15). -/
def Obligations.StaleSlotsNeverMatter : Prop :=
  ∀ (s t : State) (stack : Vector Word 16),
    (∀ i : Fin 16, i.val < s.sp.val → stack[i] = s.slot i) → step s = .next t →
    ∃ u, step { s with S := stack } = .next u ∧ u.pc = t.pc ∧ u.sp = t.sp ∧ SameRegsBut [] t u ∧ SameMemory t u ∧ SameStatus t u ∧
      ∀ i : Fin 16, i.val < t.sp.val → u.slot i = t.slot i

/-- 10_state R22: every instruction answers a next state, writes no register outside its "writes" column, and depends on no register outside its "reads" column. That a return or a call that raises a fatal error writes no register is decision D7 (log 15). -/
def Obligations.RegisterAccessFollowsTheTable : Prop :=
  ∀ (i : Instr) (s : State), ∃ t, exec i s = .next t ∧ SameRegsBut (regsWritten i) s t ∧
    ∀ regs : Vector Byte 16, (∀ r ∈ regsRead i, regs[r] = s.readV r) →
      ∃ u, exec i { s with V := regs } = .next u ∧ u.pc = t.pc ∧ SameStack t u ∧ SameMemory t u ∧ SameStatus t u ∧
        ∀ r ∈ regsWritten i, u.readV r = t.readV r

/-- 70_reset_and_hazards R217 (derived by the spec): outside jump, call, return and skip, a cycle moves `pc` by exactly 2. Halt is among these instructions, and its `pc` = A + 2 is decision D3 (log 11). -/
def Obligations.StraightLineCodeAdvancesPcByTwo : Prop :=
  ∀ (s : State) (i : Instr), AboutToRun s i → redirectsPc i = false → ∃ t, step s = .next t ∧ t.pc.toNat = s.pc.toNat + 2

/-- 10_state R26: the handler sees `pc` = A + 2, and each instruction that raises no fatal error leaves `pc` as the rule's list says. Halt's A + 2 is decision D3 (log 11). -/
def Obligations.PcAfterEachInstruction : Prop :=
  ∀ (s t : State) (i : Instr), AboutToRun s i → step s = .next t → (∀ r, t.status ≠ .faulted r) →
    s.advance.pc.toNat = s.pc.toNat + 2 ∧
    match i with
    | .halt | .clearDisplay | .loadImm _ _ | .addImm _ _ => t.pc.toNat = s.pc.toNat + 2
    | .copy _ _ | .bitOr _ _ | .bitAnd _ _ | .bitXor _ _ | .addReg _ _ => t.pc.toNat = s.pc.toNat + 2
    | .skipEqImm x kk => t.pc.toNat = s.pc.toNat + (if s.readV x = kk then 4 else 2)
    | .skipNeImm x kk => t.pc.toNat = s.pc.toNat + (if s.readV x = kk then 2 else 4)
    | .skipEqReg x y => t.pc.toNat = s.pc.toNat + (if s.readV x = s.readV y then 4 else 2)
    | .jump nnn | .call nnn => t.pc.toNat = nnn.toNat
    | .ret => ∃ j : Fin 16, s.sp.val = j.val + 1 ∧ t.pc = s.slot j

/-- 40_engine R106: a jump to its own address runs forever; no number of steps ends the run, and none faults. -/
def Obligations.JumpToItselfNeverEnds : Prop :=
  ∀ (s : State) (nnn : Addr12), AboutToRun s (.jump nnn) → nnn.toNat = s.pc.toNat →
    ∀ n, Sys2Proof.core.run n s = .next s ∧ runFor n s = .stillRunning s ∧ SafeRun n s

/-- 40_engine R106, 70_reset_and_hazards R216 (decision D21): the run loop returns only a terminal status that running steps lead to, and using up its bound is never such an end. That a terminal status is seen as a stop of step is log 6 (DEDUCED). The third clause is not R106's: a machine that R210 calls "not yet running" is no end either, and that the run loop answers notStarted at such a machine alone, itself, is the model's reading (log 5, DEDUCED). -/
def Obligations.RunReturnsOnlyATerminalStatus : Prop :=
  ∀ (n : Nat) (s t : State),
    (runFor n s = .returned t → (t.status = .halted ∨ ∃ r, t.status = .faulted r) ∧ ∃ k ≤ n, RunsTo (fun u => u.status = .running) k s t) ∧
    (runFor n s = .stillRunning t → t.status = .running ∧ RunsTo (fun u => u.status = .running) n s t) ∧
    (runFor n s = .notStarted t → t = s ∧ s.status = .notYetRunning)

/-! ### Reset and the host's hand-over -/

/-- 70_reset_and_hazards R210, 10_state R24, R29, R30, R31, R34: construction zeroes the registers, the stack and `sp`, the status is not yet running (log 5), and no signal has been sent. -/
def Obligations.ConstructionZeroesRegistersAndStack : Prop :=
  (∀ r : Reg, State.reset.readV r = 0#8) ∧ (∀ i : Fin 16, State.reset.slot i = 0#16) ∧
  State.reset.sp = 0 ∧ State.reset.status = .notYetRunning ∧ State.reset.signals = []

/-- 00_scope R6, 70_reset_and_hazards R211 (parameters D11, D12, D13): at the first fetch the state holds the host's entry, seed and image, and construction's values elsewhere; the status is Running, `run()` having started (R31; log 5). -/
def Obligations.FirstFetchStateHoldsTheParameters : Prop :=
  ∀ (entry : Word) (seed : Vector Byte 16) (image : Nat → Byte),
    (State.init entry seed image).pc = entry ∧
    (∀ r : Reg, (State.init entry seed image).readV r = seed[r]) ∧
    (∀ a < 4096, (State.init entry seed image).byteAt a = image a) ∧
    (State.init entry seed image).sp = 0 ∧ (∀ i : Fin 16, (State.init entry seed image).slot i = 0#16) ∧
    (State.init entry seed image).status = .running ∧ (State.init entry seed image).signals = []

/-- 20_memory R52: before `run()` the host's write changes the byte at its address and no other, and keeps memory canonical; outside memory it stops (the stop's form is log 9). Once `run()` has started there is no such write (decision D20; the stop is log 19). -/
def Obligations.HostLoadWritesOneByte : Prop :=
  ∀ (s : State) (a : Nat) (v : Byte), Memory.wf s.M = true →
    (s.status = .notYetRunning → a < 4096 → ∃ t, hostLoad a v s = .next t ∧ t.byteAt a = v ∧ (∀ b, b ≠ a → t.byteAt b = s.byteAt b) ∧
      Memory.wf t.M = true ∧ t.pc = s.pc ∧ SameRegsBut [] s t ∧ SameStack s t ∧ SameStatus s t) ∧
    (s.status = .notYetRunning → 4096 ≤ a → hostLoad a v s = .fault (.hostLoadOutOfBounds a)) ∧
    (s.status ≠ .notYetRunning → hostLoad a v s = .fault .hostNotBeforeRun)

/-- 60_exceptions R197 (decision D19), 70_reset_and_hazards R211, R212: before `run()` the host's set-entry and pre-seed write what they name and nothing else, and with load they may come in any order. At any other time they stop (log 19). -/
def Obligations.HostSettersActBeforeTheRunInAnyOrder : Prop :=
  ∀ (s : State) (entry : Word) (x : Reg) (b v : Byte) (a : Nat),
    (s.status = .notYetRunning →
      (∃ t, hostSetEntry entry s = .next t ∧ t.pc = entry ∧ SameRegsBut [] s t ∧ SameStack s t ∧ SameMemory s t ∧ SameStatus s t) ∧
      ∃ t, hostPreSeed x b s = .next t ∧ t.readV x = b ∧ SameRegsBut [x] s t ∧ t.pc = s.pc ∧ SameStack s t ∧ SameMemory s t ∧ SameStatus s t) ∧
    (s.status ≠ .notYetRunning → hostSetEntry entry s = .fault .hostNotBeforeRun ∧ hostPreSeed x b s = .fault .hostNotBeforeRun) ∧
    andThen (hostLoad a v s) (hostSetEntry entry) = andThen (hostSetEntry entry s) (hostLoad a v) ∧
    andThen (hostLoad a v s) (hostPreSeed x b) = andThen (hostPreSeed x b s) (hostLoad a v) ∧
    andThen (hostSetEntry entry s) (hostPreSeed x b) = andThen (hostPreSeed x b s) (hostSetEntry entry)

/-- 70_reset_and_hazards R210, 60_exceptions R197 (decision D19), 10_state R31: before `run()` there is no step and no run (the stop is log 5); the run transaction sets the status to Running and nothing else, once (the stop of a second one is log 19); and no step leads back before `run()`. -/
def Obligations.RunStartsOnceAndNoStepComesBeforeIt : Prop :=
  ∀ s : State,
    (s.status = .notYetRunning → step s = .fault .notStarted ∧ (∀ n, runFor n s = .notStarted s) ∧
      ∃ t, hostRun s = .next t ∧ t.status = .running ∧ t.pc = s.pc ∧ t.signals = s.signals ∧
        SameRegsBut [] s t ∧ SameStack s t ∧ SameMemory s t) ∧
    (s.status ≠ .notYetRunning → hostRun s = .fault .hostNotBeforeRun) ∧
    ∀ t, step s = .next t → t.status ≠ .notYetRunning

/-- 70_reset_and_hazards R212, R211, 60_exceptions R197 (decision D19): construct, load of a whole image, set-entry, pre-seed and run lead, for every entry, seed and image, to the state at the first fetch. -/
def Obligations.HostBootReachesTheFirstFetchState : Prop :=
  ∀ (entry : Word) (seed : Vector Byte 16) (image : Nat → Byte),
    hostBoot entry seed 0 ((List.range 4096).map image) = .next (State.init entry seed image)

/-- 20_memory R51: a read inside memory answers the byte there, and outside it the offending address. -/
def Obligations.MemReadChecksTheBound : Prop :=
  ∀ (m : Memory) (a : Nat), (a < 4096 → memRead m a = .ok (Memory.read m a)) ∧ (4096 ≤ a → memRead m a = .error a)

/-! ### System words -/

/-- 41_system R120: halt sets the status and nothing else; `pc` stays at A + 2 (decision D3, log 11). -/
def Obligations.HaltStopsTheRun : Prop :=
  ∀ s : State, ∃ t, exec .halt s = .next t ∧ t.status = .halted ∧ t.pc = s.pc ∧ t.signals = s.signals ∧
    SameRegsBut [] s t ∧ SameStack s t ∧ SameMemory s t

/-- 41_system R121: clear-display sends one signal and changes no Machine State; it always succeeds (decision D22). -/
def Obligations.ClearDisplaySendsOneSignal : Prop :=
  ∀ s : State, ∃ t, exec .clearDisplay s = .next t ∧ t.signals = s.signals ++ [.clearDisplay] ∧ t.status = s.status ∧ t.pc = s.pc ∧
    SameRegsBut [] s t ∧ SameStack s t ∧ SameMemory s t

/-! ### Control transfer -/

/-- 42_control_flow R130: a return with `i + 1` frames moves `sp` to `i` and `pc` to slot `i`, and writes no slot (decision D4, log 12), register or byte. -/
def Obligations.ReturnPopsItsTarget : Prop :=
  ∀ (s : State) (i : Fin 16), s.sp.val = i.val + 1 →
    ∃ t, exec .ret s = .next t ∧ t.sp.val = i.val ∧ t.pc = s.slot i ∧ (∀ j : Fin 16, t.slot j = s.slot j) ∧
      SameRegsBut [] s t ∧ SameMemory s t ∧ SameStatus s t

/-- 42_control_flow R130, 60_exceptions R181 (record: decision D8, log 16; code 1: decision D9, log 16; state: decision D7, log 15): a return with no frame takes StackUnderflow, code 1, with nothing written; the record's `pc` is A, the handler's `pc` less 2 (log 2). -/
def Obligations.ReturnOnEmptyStackUnderflows : Prop :=
  ∀ s : State, s.sp = 0 →
    ∃ t, exec .ret s = .next t ∧
      t.status = .faulted { kind := .stackUnderflow, pc := s.pc - 2#16, opcode := some 0x00EE#16, addr := none } ∧
      faultCode .stackUnderflow = 1 ∧
      t.pc = s.pc ∧ SameRegsBut [] s t ∧ SameStack s t ∧ SameMemory s t ∧ t.signals = s.signals

/-- 42_control_flow R131: a jump sets `pc` to `nnn`, zero-extended, and changes nothing else. -/
def Obligations.JumpSetsPcToItsTarget : Prop :=
  (∀ w : Word, w &&& 0xF000#16 = 0x1000#16 → decode w = .known (.jump (w.extractLsb' 0 12))) ∧
  ∀ (nnn : Addr12) (s : State), ∃ t, exec (.jump nnn) s = .next t ∧ t.pc.toNat = nnn.toNat ∧
    SameRegsBut [] s t ∧ SameStack s t ∧ SameMemory s t ∧ SameStatus s t

/-- 42_control_flow R132: a call below 16 frames pushes the already advanced `pc` in slot `sp`, counts it and goes to `nnn`; no other slot, register or byte changes. -/
def Obligations.CallPushesTheReturnAddress : Prop :=
  ∀ (nnn : Addr12) (s : State), s.sp.val < 16 →
    ∃ t, exec (.call nnn) s = .next t ∧ t.sp.val = s.sp.val + 1 ∧ t.pc.toNat = nnn.toNat ∧
      (∀ i : Fin 16, i.val = s.sp.val → t.slot i = s.pc) ∧ (∀ i : Fin 16, i.val ≠ s.sp.val → t.slot i = s.slot i) ∧
      SameRegsBut [] s t ∧ SameMemory s t ∧ SameStatus s t

/-- 42_control_flow R132, 60_exceptions R182 (record: decision D8, log 16; code 2: decision D9, log 16; state: decision D7, log 15): a call with 16 frames takes StackOverflow, code 2, with the full call word and nothing written; the record's `pc` is A, the handler's `pc` less 2 (log 2). -/
def Obligations.CallOnFullStackOverflows : Prop :=
  ∀ (nnn : Addr12) (s : State), s.sp = 16 →
    ∃ t, exec (.call nnn) s = .next t ∧
      t.status = .faulted { kind := .stackOverflow, pc := s.pc - 2#16, opcode := some (BitVec.ofNat 16 (0x2000 + nnn.toNat)), addr := none } ∧
      faultCode .stackOverflow = 2 ∧
      t.pc = s.pc ∧ SameRegsBut [] s t ∧ SameStack s t ∧ SameMemory s t ∧ t.signals = s.signals

/-! ### Skips -/

/-- 43_skip R140: `3xkk` adds 2 to `pc` exactly when V[x] = kk, and changes nothing else. -/
def Obligations.SkipIfEqualImmediate : Prop :=
  (∀ w : Word, w &&& 0xF000#16 = 0x3000#16 → decode w = .known (.skipEqImm (w.extractLsb' 8 4).toFin (w.extractLsb' 0 8))) ∧
  ∀ (x : Reg) (kk : Byte) (s : State), ∃ t, exec (.skipEqImm x kk) s = .next t ∧
    (s.readV x = kk → t.pc = s.pc + 2#16) ∧ (s.readV x ≠ kk → t.pc = s.pc) ∧
    SameRegsBut [] s t ∧ SameStack s t ∧ SameMemory s t ∧ SameStatus s t

/-- 43_skip R141: `4xkk` adds 2 to `pc` exactly when V[x] differs from kk, and changes nothing else. -/
def Obligations.SkipIfNotEqualImmediate : Prop :=
  (∀ w : Word, w &&& 0xF000#16 = 0x4000#16 → decode w = .known (.skipNeImm (w.extractLsb' 8 4).toFin (w.extractLsb' 0 8))) ∧
  ∀ (x : Reg) (kk : Byte) (s : State),
    (∃ t, exec (.skipNeImm x kk) s = .next t ∧
      (s.readV x ≠ kk → t.pc = s.pc + 2#16) ∧ (s.readV x = kk → t.pc = s.pc) ∧
      SameRegsBut [] s t ∧ SameStack s t ∧ SameMemory s t ∧ SameStatus s t) ∧
    ∃ t u, exec (.skipEqImm x kk) s = .next t ∧ exec (.skipNeImm x kk) s = .next u ∧
      ((t.pc = s.pc + 2#16 ∧ u.pc ≠ s.pc + 2#16) ∨ (t.pc ≠ s.pc + 2#16 ∧ u.pc = s.pc + 2#16))

/-- 43_skip R142: `5xy0` adds 2 to `pc` exactly when V[x] = V[y], and changes nothing else; `5xy1`-`5xyF` are Unknown. -/
def Obligations.SkipIfEqualRegisters : Prop :=
  (∀ w : Word, w &&& 0xF00F#16 = 0x5000#16 → decode w = .known (.skipEqReg (w.extractLsb' 8 4).toFin (w.extractLsb' 4 4).toFin)) ∧
  (∀ w : Word, w.extractLsb' 12 4 = 0x5#4 → w.extractLsb' 0 4 ≠ 0x0#4 → decode w = .unknown w) ∧
  ∀ (x y : Reg) (s : State), ∃ t, exec (.skipEqReg x y) s = .next t ∧
    (s.readV x = s.readV y → t.pc = s.pc + 2#16) ∧ (s.readV x ≠ s.readV y → t.pc = s.pc) ∧
    SameRegsBut [] s t ∧ SameStack s t ∧ SameMemory s t ∧ SameStatus s t

/-- 43_skip R139: a word a skip passes over is never fetched; whatever memory holds at A + 2 and A + 3, the skip's step and the step after it are the same. The state after a fatal error of the second step is decision D7 (log 15). -/
def Obligations.SkippedWordHasNoEffect : Prop :=
  ∀ (s t u : State) (m : Memory), step s = .next t → t.pc.toNat = s.pc.toNat + 4 → step t = .next u →
    (∀ a, a ≠ s.pc.toNat + 2 → a ≠ s.pc.toNat + 3 → Memory.read m a = s.byteAt a) →
    step { s with M := m } = .next { t with M := m } ∧ step { t with M := m } = .next { u with M := m }

/-! ### Register-immediate operations -/

/-- 44_immediate R150: `6xkk` writes kk to V[x], VF included, and changes nothing else. -/
def Obligations.LoadImmediateWritesKk : Prop :=
  (∀ w : Word, w &&& 0xF000#16 = 0x6000#16 → decode w = .known (.loadImm (w.extractLsb' 8 4).toFin (w.extractLsb' 0 8))) ∧
  ∀ (x : Reg) (kk : Byte) (s : State), ∃ t, exec (.loadImm x kk) s = .next t ∧ t.readV x = kk ∧ SameRegsBut [x] s t ∧
    t.pc = s.pc ∧ SameStack s t ∧ SameMemory s t ∧ SameStatus s t

/-- 44_immediate R151: `7xkk` writes (V[x] + kk) mod 256 to V[x], and changes nothing else: VF is unchanged unless x = 0xF. -/
def Obligations.AddImmediateWrapsWithoutCarry : Prop :=
  (∀ w : Word, w &&& 0xF000#16 = 0x7000#16 → decode w = .known (.addImm (w.extractLsb' 8 4).toFin (w.extractLsb' 0 8))) ∧
  ∀ (x : Reg) (kk : Byte) (s : State), ∃ t, exec (.addImm x kk) s = .next t ∧
    (t.readV x).toNat = ((s.readV x).toNat + kk.toNat) % 256 ∧ SameRegsBut [x] s t ∧
    t.pc = s.pc ∧ SameStack s t ∧ SameMemory s t ∧ SameStatus s t

/-! ### ALU -/

/-- 45_alu R161: `8xy0` writes V[y] to V[x], and changes nothing else. -/
def Obligations.CopyWritesVy : Prop :=
  (∀ w : Word, w &&& 0xF00F#16 = 0x8000#16 → decode w = .known (.copy (w.extractLsb' 8 4).toFin (w.extractLsb' 4 4).toFin)) ∧
  ∀ (x y : Reg) (s : State), ∃ t, exec (.copy x y) s = .next t ∧ t.readV x = s.readV y ∧ SameRegsBut [x] s t ∧
    t.pc = s.pc ∧ SameStack s t ∧ SameMemory s t ∧ SameStatus s t

/-- 45_alu R162, bit by bit as R168 says: `8xy1` writes V[x] OR V[y] to V[x], and changes nothing else: VF is unchanged unless x = 0xF. -/
def Obligations.OrWritesBitwiseOr : Prop :=
  (∀ w : Word, w &&& 0xF00F#16 = 0x8001#16 → decode w = .known (.bitOr (w.extractLsb' 8 4).toFin (w.extractLsb' 4 4).toFin)) ∧
  ∀ (x y : Reg) (s : State), ∃ t, exec (.bitOr x y) s = .next t ∧
    (∀ k < 8, (t.readV x).getLsbD k = ((s.readV x).getLsbD k || (s.readV y).getLsbD k)) ∧ SameRegsBut [x] s t ∧
    t.pc = s.pc ∧ SameStack s t ∧ SameMemory s t ∧ SameStatus s t

/-- 45_alu R163: `8xy2` writes V[x] AND V[y] to V[x], and changes nothing else: VF is unchanged unless x = 0xF. -/
def Obligations.AndWritesBitwiseAnd : Prop :=
  (∀ w : Word, w &&& 0xF00F#16 = 0x8002#16 → decode w = .known (.bitAnd (w.extractLsb' 8 4).toFin (w.extractLsb' 4 4).toFin)) ∧
  ∀ (x y : Reg) (s : State), ∃ t, exec (.bitAnd x y) s = .next t ∧
    (∀ k < 8, (t.readV x).getLsbD k = ((s.readV x).getLsbD k && (s.readV y).getLsbD k)) ∧ SameRegsBut [x] s t ∧
    t.pc = s.pc ∧ SameStack s t ∧ SameMemory s t ∧ SameStatus s t

/-- 45_alu R164: `8xy3` writes V[x] XOR V[y] to V[x], and changes nothing else: VF is unchanged unless x = 0xF. -/
def Obligations.XorWritesBitwiseXor : Prop :=
  (∀ w : Word, w &&& 0xF00F#16 = 0x8003#16 → decode w = .known (.bitXor (w.extractLsb' 8 4).toFin (w.extractLsb' 4 4).toFin)) ∧
  ∀ (x y : Reg) (s : State), ∃ t, exec (.bitXor x y) s = .next t ∧
    (∀ k < 8, (t.readV x).getLsbD k = ((s.readV x).getLsbD k != (s.readV y).getLsbD k)) ∧ SameRegsBut [x] s t ∧
    t.pc = s.pc ∧ SameStack s t ∧ SameMemory s t ∧ SameStatus s t

/-- 45_alu R165: `8xy4` writes the sum modulo 256 to V[x] and the carry to VF on every execution; with x = 0xF the carry is what stays (decision D5). -/
def Obligations.AddRegistersWritesSumAndCarry : Prop :=
  (∀ w : Word, w &&& 0xF00F#16 = 0x8004#16 → decode w = .known (.addReg (w.extractLsb' 8 4).toFin (w.extractLsb' 4 4).toFin)) ∧
  ∀ (x y : Reg) (s : State), ∃ t, exec (.addReg x y) s = .next t ∧
    (x ≠ 15 → (t.readV x).toNat = ((s.readV x).toNat + (s.readV y).toNat) % 256) ∧
    t.readV 15 = (if (s.readV x).toNat + (s.readV y).toNat > 255 then 1#8 else 0#8) ∧ SameRegsBut [x, 15] s t ∧
    t.pc = s.pc ∧ SameStack s t ∧ SameMemory s t ∧ SameStatus s t

/-- 45_alu R166: the carry is the ninth bit of the exact sum. -/
def Obligations.CarryIsTheNinthBit : Prop :=
  ∀ a b : Byte, (carryOf a b).toNat = (a.toNat + b.toNat) >>> 8 ∧ (carryOf a b = 1#8 ↔ a.toNat + b.toNat > 255)

/-! ### Invariants and whole runs -/

/-- The invariant holds at reset, and at the first fetch for every entry, seed and image. -/
def Obligations.InvariantHoldsAtTheStart : Prop :=
  State.reset.Inv ∧ ∀ (entry : Word) (seed : Vector Byte 16) (image : Nat → Byte), (State.init entry seed image).Inv

/-- Every step keeps the invariant: memory in canonical form, used slots between 2 and 0x1000 (10_state R28), and a fatal error's record and state as 60_exceptions R184-R186 give them (decisions D6, D7, D8; log 14, 15, 16). -/
def Obligations.EveryStepKeepsTheInvariant : Prop :=
  ∀ s t : State, s.Inv → step s = .next t → t.Inv

/-- 10_state R28 (derived by the spec): no pc update wraps. From a state in the invariant whose `pc` is at most 0x1002, a step at 0xFFF or above leaves `pc` (decision D6, log 14); any other sets it, as natural numbers, to `pc` + 2, to `pc` + 4 in a skip, to `nnn` in a jump or call, or to the popped slot in a return; and `pc` is again at most 0x1002. These rest on decisions of the spec: `pc` + 2 after halt on D3 (log 11), `pc` + 2 after UnimplementedOpcode, StackUnderflow and StackOverflow on D7 (log 15), and that an odd `pc` is stepped like any other on D2 (log 10). A `pc` above 0x1002, which only an entry can give, is FetchOutsideMemoryIsAFatalError's case. -/
def Obligations.ProgramCounterNeverWraps : Prop :=
  ∀ s t : State, s.Inv → PcInRange s → step s = .next t → PcInRange t ∧
    (0xFFF ≤ s.pc.toNat → t.pc = s.pc) ∧
    (s.pc.toNat < 0xFFF →
      t.pc.toNat = s.pc.toNat + 2 ∨
      (t.pc.toNat = s.pc.toNat + 4 ∧ ((∃ x kk, AboutToRun s (.skipEqImm x kk)) ∨ (∃ x kk, AboutToRun s (.skipNeImm x kk)) ∨ ∃ x y, AboutToRun s (.skipEqReg x y))) ∨
      (∃ nnn, (AboutToRun s (.jump nnn) ∨ AboutToRun s (.call nnn)) ∧ t.pc.toNat = nnn.toNat) ∨
      (AboutToRun s .ret ∧ ∃ j : Fin 16, s.sp.val = j.val + 1 ∧ t.pc.toNat = (s.slot j).toNat))

/-- For every entry, seed and image, every state a run reaches meets the invariant (whose fault record and state are decisions D6, D7, D8; log 14, 15, 16), still holds the loaded image (20_memory R60; after a fatal error D7), and has a `pc` of at most 0x1002 when the entry has (10_state R28). -/
def Obligations.EveryReachableStateIsGood : Prop :=
  ∀ (entry : Word) (seed : Vector Byte 16) (image : Nat → Byte) (n : Nat) (t : State),
    RunsTo (fun _ => True) n (State.init entry seed image) t →
    t.Inv ∧ (∀ a < 4096, t.byteAt a = image a) ∧ (entry.toNat ≤ 0x1002 → PcInRange t)

/-- Stack balance (95_test_vectors W4, 42_control_flow R130, R132): when the frames above a call's are balanced, its return puts `sp` back and goes on at the instruction after the call. -/
def Obligations.MatchedReturnResumesAfterTheCall : Prop :=
  ∀ (s t u v : State) (nnn : Addr12) (n : Nat),
    AboutToRun s (.call nnn) → s.sp.val < 16 → step s = .next t →
    RunsTo (fun w => s.sp.val < w.sp.val) n t u → u.sp.val = s.sp.val + 1 → AboutToRun u .ret → step u = .next v →
    v.sp = s.sp ∧ v.pc.toNat = s.pc.toNat + 2 ∧ v.status = .running ∧ (∀ i : Fin 16, i.val < s.sp.val → v.slot i = s.slot i)

/-- 42_control_flow R132, 60_exceptions R182: calls one after another succeed while at most 16 frames are outstanding, and the next one takes StackOverflow. The record's `pc` is decision D8 (log 16), and `sp` = 16 after the fatal error is decision D7 (log 15). -/
def Obligations.SixteenNestedCallsFitAndTheNextOverflows : Prop :=
  ∀ (n : Nat) (s t : State), RunsTo (fun w => ∃ nnn, AboutToRun w (.call nnn)) n s t → s.sp.val + n ≤ 16 →
    t.sp.val = s.sp.val + n ∧
    (0 < n → t.status = .running) ∧
    (s.sp.val + n = 16 → (∃ nnn, AboutToRun t (.call nnn)) →
      ∃ v r, step t = .next v ∧ v.status = .faulted r ∧ r.kind = .stackOverflow ∧ r.pc = t.pc ∧ v.sp = 16)
end

