-- ==== Sys2Proof/Laws/Decode.lean ====
section
/-! SUPPORT. Small facts about words, fields and the decode table. -/

namespace Sys2Proof

@[simp] theorem regOf_fieldOf (x : Reg) : regOf (fieldOf x) = x := rfl

@[simp] theorem fieldOf_regOf (f : BitVec 4) : fieldOf (regOf f) = f := rfl

/-! ### The fields of a word that was put together -/

@[simp] theorem fieldC_wordN (c : BitVec 4) (n : Addr12) : fieldC (wordN c n) = c :=
  BitVec.extractLsb'_append_eq_left

@[simp] theorem fieldNNN_wordN (c : BitVec 4) (n : Addr12) : fieldNNN (wordN c n) = n :=
  BitVec.extractLsb'_append_eq_right

/-- A field that lies inside `nnn` is a field of `nnn`. -/
theorem extract_wordN (c : BitVec 4) (n : Addr12) (start len : Nat) (h : start + len ≤ 12) :
    (wordN c n).extractLsb' start len = n.extractLsb' start len := by
  rw [wordN, BitVec.extractLsb'_append_eq_of_add_le h]

theorem fieldX_wordXK (c : BitVec 4) (x : Reg) (kk : Byte) : fieldX (wordXK c x kk) = fieldOf x :=
  (extract_wordN c _ 8 4 (by omega)).trans BitVec.extractLsb'_append_eq_left

theorem fieldKK_wordXK (c : BitVec 4) (x : Reg) (kk : Byte) : fieldKK (wordXK c x kk) = kk :=
  (extract_wordN c _ 0 8 (by omega)).trans BitVec.extractLsb'_append_eq_right

theorem fieldX_wordXYD (c : BitVec 4) (x y : Reg) (d : BitVec 4) : fieldX (wordXYD c x y d) = fieldOf x :=
  (extract_wordN c _ 8 4 (by omega)).trans BitVec.extractLsb'_append_eq_left

theorem fieldY_wordXYD (c : BitVec 4) (x y : Reg) (d : BitVec 4) : fieldY (wordXYD c x y d) = fieldOf y :=
  ((extract_wordN c _ 4 4 (by omega)).trans (BitVec.extractLsb'_append_eq_of_add_le (by omega))).trans
    BitVec.extractLsb'_append_eq_left

theorem fieldD_wordXYD (c : BitVec 4) (x y : Reg) (d : BitVec 4) : fieldD (wordXYD c x y d) = d :=
  ((extract_wordN c _ 0 4 (by omega)).trans (BitVec.extractLsb'_append_eq_of_add_le (by omega))).trans
    BitVec.extractLsb'_append_eq_right

/-! ### A word is put together from its fields (30_encoding R70) -/

theorem word_eq_wordN (w : Word) : w = wordN (fieldC w) (fieldNNN w) := by
  have h := BitVec.extractLsb'_append_extractLsb'_eq_extractLsb' (x := w) (start₁ := 0) (start₂ := 12) (len₁ := 12) (len₂ := 4) rfl
  exact (BitVec.extractLsb'_eq_self (x := w)).symm.trans h.symm

theorem word_eq_wordXK (w : Word) : w = wordXK (fieldC w) (regOf (fieldX w)) (fieldKK w) := by
  have h := BitVec.extractLsb'_append_extractLsb'_eq_extractLsb' (x := w) (start₁ := 0) (start₂ := 8) (len₁ := 8) (len₂ := 4) rfl
  exact (word_eq_wordN w).trans (congrArg (wordN (fieldC w)) h.symm)

theorem word_eq_wordXYD (w : Word) : w = wordXYD (fieldC w) (regOf (fieldX w)) (regOf (fieldY w)) (fieldD w) := by
  have h := BitVec.extractLsb'_append_extractLsb'_eq_extractLsb' (x := w) (start₁ := 0) (start₂ := 4) (len₁ := 4) (len₂ := 4) rfl
  exact (word_eq_wordXK w).trans (congrArg (fun kk : Byte => wordXK (fieldC w) (regOf (fieldX w)) kk) h.symm)

/-! ### Masking a word, field by field -/

/-- Two words put together are equal when their parts are. -/
theorem wordN_inj {c c' : BitVec 4} {n n' : Addr12} : wordN c n = wordN c' n' ↔ c = c' ∧ n = n' := by
  constructor
  · intro h
    exact ⟨by simpa using congrArg fieldC h, by simpa using congrArg fieldNNN h⟩
  · rintro ⟨rfl, rfl⟩
    rfl

theorem wordN_and (c c' : BitVec 4) (n n' : Addr12) : wordN c n &&& wordN c' n' = wordN (c &&& c') (n &&& n') :=
  BitVec.and_append

theorem wordXYD_and (c c' d d' : BitVec 4) (x x' y y' : Reg) :
    wordXYD c x y d &&& wordXYD c' x' y' d' =
      wordXYD (c &&& c') (regOf (fieldOf x &&& fieldOf x')) (regOf (fieldOf y &&& fieldOf y')) (d &&& d') :=
  (wordN_and c c' _ _).trans (congrArg (wordN (c &&& c'))
    (BitVec.and_append.trans (congrArg (fun k : Byte => (fieldOf x &&& fieldOf x') ++ k) BitVec.and_append)))

theorem and_fifteen (f : BitVec 4) : f &&& 0xF#4 = f := BitVec.and_allOnes

/-- The mask 0xF000 keeps the class alone. -/
theorem mask_class (w : Word) (c : BitVec 4) : w &&& 0xF000#16 = wordN c 0#12 ↔ fieldC w = c := by
  have h : w &&& 0xF000#16 = wordN (fieldC w) 0#12 := by
    conv_lhs => rw [word_eq_wordN w, show (0xF000#16 : Word) = wordN 0xF#4 0x000#12 from rfl, wordN_and, and_fifteen, BitVec.and_zero]
  rw [h, wordN_inj]
  simp

/-- The mask 0xF00F keeps the class and the selector. -/
theorem mask_class_selector (w : Word) (c d : BitVec 4) :
    w &&& 0xF00F#16 = wordXYD c 0 0 d ↔ fieldC w = c ∧ fieldD w = d := by
  have h : w &&& 0xF00F#16 = wordXYD (fieldC w) 0 0 (fieldD w) := by
    conv_lhs => rw [word_eq_wordXYD w, show (0xF00F#16 : Word) = wordXYD 0xF#4 0 0 0xF#4 from rfl, wordXYD_and, and_fifteen, and_fifteen]
    rw [show fieldOf 0 = 0#4 from rfl, BitVec.and_zero, BitVec.and_zero]
    rfl
  rw [h]
  constructor
  · intro h'
    exact ⟨by simpa [wordXYD] using congrArg fieldC h', by simpa [fieldD_wordXYD] using congrArg fieldD h'⟩
  · rintro ⟨rfl, rfl⟩
    rfl

/-- The mask 0xFFFF keeps the whole word. -/
theorem mask_whole (w : Word) : w &&& 0xFFFF#16 = w := BitVec.and_allOnes

/-! ### The table's rows -/

/-- A word belongs to a row whose mask is 0xF000 exactly when its class is the row's. -/
theorem formMatches_class {f : Form} {c : BitVec 4} (hmask : formMask f = 0xF000#16) (hmatch : formMatch f = wordN c 0#12) (w : Word) :
    formMatches f w = true ↔ fieldC w = c := by
  rw [formMatches, hmask, hmatch, beq_iff_eq, mask_class]

/-- A word belongs to a row whose mask is 0xF00F exactly when its class and selector are the row's. -/
theorem formMatches_selector {f : Form} {c d : BitVec 4} (hmask : formMask f = 0xF00F#16) (hmatch : formMatch f = wordXYD c 0 0 d) (w : Word) :
    formMatches f w = true ↔ fieldC w = c ∧ fieldD w = d := by
  rw [formMatches, hmask, hmatch, beq_iff_eq, mask_class_selector]

/-- Every row is in the list the decoder searches. -/
theorem mem_allForms (f : Form) : f ∈ allForms := by cases f <;> decide

/-- Two rows differ in a bit that both masks keep. -/
theorem rows_differ (f g : Form) (h : f ≠ g) : formMatch f &&& (formMask f &&& formMask g) ≠ formMatch g &&& (formMask f &&& formMask g) := by
  revert h
  cases f <;> cases g <;> decide

/-- What the decoder's search finds belongs to the word. -/
theorem formMatches_of_formOf {w : Word} {f : Form} (h : formOf w = some f) : formMatches f w = true :=
  List.find?_some (p := fun f => formMatches f w) h

/-- A decoded instruction comes from the row the word belongs to. -/
theorem decode_known {w : Word} {i : Instr} (h : decode w = .known i) : ∃ f, formOf w = some f ∧ i = buildForm f w := by
  unfold decode at h
  split at h
  · cases h
    exact ⟨_, ‹_›, rfl⟩
  · cases h

/-- An Unknown word is reported as it is (30_encoding R75). -/
theorem decode_unknown {w op : Word} (h : decode w = .unknown op) : op = w := by
  unfold decode at h
  split at h
  · cases h
  · cases h
    rfl

end Sys2Proof
end

