-- ==== Sys2Proof/Laws/Memory.lean ====
section
/-! SUPPORT. The laws of memory: reading after writing, and that every operation keeps the canonical form. -/

namespace Sys2Proof.Machine

theorem wfFrom_cons {b a : Nat} {v : Byte} {rest : Memory} :
    wfFrom b ((a, v) :: rest) = true ↔ b ≤ a ∧ a < Config.memSize ∧ v ≠ Config.memFill ∧ wfFrom (a + 1) rest = true := by
  simp [wfFrom, and_assoc]

/-- Below its first listed address a canonical memory reads as the fill. -/
theorem read_below {m : Memory} {b a : Nat} (h : wfFrom b m = true) (hab : a < b) : Memory.read m a = Config.memFill := by
  induction m generalizing b with
  | nil => rfl
  | cons c rest ih =>
    obtain ⟨k, w⟩ := c
    rw [wfFrom_cons] at h
    rw [Memory.read, if_neg (by omega)]
    exact ih h.2.2.2 (by omega)

/-- A lower bound of a canonical memory may be lowered. -/
theorem wfFrom_mono {m : Memory} {b c : Nat} (h : wfFrom c m = true) (hbc : b ≤ c) : wfFrom b m = true := by
  cases m with
  | nil => rfl
  | cons x rest =>
    obtain ⟨k, w⟩ := x
    rw [wfFrom_cons] at h ⊢
    exact ⟨by omega, h.2⟩

/-- A write inside memory keeps the canonical form. -/
theorem wfFrom_write {m : Memory} {b a : Nat} {v : Byte} (h : wfFrom b m = true) (hb : b ≤ a) (ha : a < Config.memSize) :
    wfFrom b (Memory.write m a v) = true := by
  induction m generalizing b with
  | nil =>
    by_cases hv : v = Config.memFill
    · simp [Memory.write, hv, wfFrom]
    · simp [Memory.write, hv, wfFrom, hb, ha]
  | cons c rest ih =>
    obtain ⟨k, w⟩ := c
    have h' := wfFrom_cons.mp h
    rw [Memory.write]
    split
    · split
      · exact h
      · exact wfFrom_cons.mpr ⟨hb, ha, by assumption, wfFrom_cons.mpr ⟨by omega, h'.2⟩⟩
    · split
      · subst a
        split
        · exact wfFrom_mono h'.2.2.2 (by omega)
        · exact wfFrom_cons.mpr ⟨hb, ha, by assumption, h'.2.2.2⟩
      · exact wfFrom_cons.mpr ⟨h'.1, h'.2.1, h'.2.2.1, ih h'.2.2.2 (by omega)⟩

/-- A write inside memory keeps the canonical form. -/
theorem write_wf {m : Memory} {a : Nat} {v : Byte} (h : Memory.wf m = true) (ha : a < Config.memSize) :
    Memory.wf (Memory.write m a v) = true :=
  wfFrom_write h (Nat.zero_le a) ha

/-- A read after a write: the byte written at its address, the old byte elsewhere. -/
theorem readFrom_write {m : Memory} {b : Nat} (h : wfFrom b m = true) (a c : Nat) (v : Byte) :
    Memory.read (Memory.write m a v) c = if c = a then v else Memory.read m c := by
  induction m generalizing b with
  | nil =>
    by_cases hv : v = Config.memFill <;> by_cases hc : c = a <;> simp [Memory.write, Memory.read, hv, hc]
  | cons x rest ih =>
    obtain ⟨k, w⟩ := x
    have h' := wfFrom_cons.mp h
    rw [Memory.write]
    by_cases hak : a < k
    · rw [if_pos hak]
      by_cases hv : v = Config.memFill
      · rw [if_pos hv]
        by_cases hc : c = a
        · subst c
          rw [if_pos rfl, hv, Memory.read, if_neg (by omega)]
          exact read_below h'.2.2.2 (by omega)
        · rw [if_neg hc]
      · rw [if_neg hv, Memory.read]
    · rw [if_neg hak]
      by_cases hk : a = k
      · subst a
        rw [if_pos rfl]
        by_cases hv : v = Config.memFill
        · rw [if_pos hv]
          by_cases hc : c = k
          · subst c
            rw [if_pos rfl, hv]
            exact read_below h'.2.2.2 (by omega)
          · rw [if_neg hc, Memory.read, if_neg hc]
        · rw [if_neg hv]
          by_cases hc : c = k <;> simp [Memory.read, hc]
      · rw [if_neg hk, Memory.read, Memory.read, ih h'.2.2.2]
        by_cases hc : c = k
        · simp [hc, Ne.symm hk]
        · simp [hc]

/-- A read after a write, for a canonical memory. -/
theorem read_write {m : Memory} (h : Memory.wf m = true) (a c : Nat) (v : Byte) :
    Memory.read (Memory.write m a v) c = if c = a then v else Memory.read m c :=
  readFrom_write h a c v

/-- Two canonical memories that read the same everywhere are the same list. -/
theorem eq_of_readFrom {m n : Memory} {b : Nat} (hm : wfFrom b m = true) (hn : wfFrom b n = true)
    (h : ∀ a, Memory.read m a = Memory.read n a) : m = n := by
  induction m generalizing b n with
  | nil =>
    cases n with
    | nil => rfl
    | cons c rest =>
      obtain ⟨k, w⟩ := c
      exact absurd (by simpa [Memory.read] using (h k).symm) (wfFrom_cons.mp hn).2.2.1
  | cons c rest ih =>
    obtain ⟨k, w⟩ := c
    have hm' := wfFrom_cons.mp hm
    cases n with
    | nil => exact absurd (by simpa [Memory.read] using h k) hm'.2.2.1
    | cons d rest' =>
      obtain ⟨l, x⟩ := d
      have hn' := wfFrom_cons.mp hn
      have hkl : k = l := by
        rcases Nat.lt_trichotomy k l with hlt | heq | hgt
        · have := h k
          rw [read_below (wfFrom_cons.mpr ⟨le_rfl, hn'.2⟩) hlt] at this
          exact absurd (by simpa [Memory.read] using this) hm'.2.2.1
        · exact heq
        · have := h l
          rw [read_below (wfFrom_cons.mpr ⟨le_rfl, hm'.2⟩) hgt] at this
          exact absurd (by simpa [Memory.read] using this.symm) hn'.2.2.1
      subst l
      have hwx : w = x := by simpa [Memory.read] using h k
      subst x
      congr 1
      refine ih hm'.2.2.2 hn'.2.2.2 fun a => ?_
      by_cases ha : a = k
      · rw [read_below hm'.2.2.2 (by omega), read_below hn'.2.2.2 (by omega)]
      · simpa [Memory.read, ha] using h a

/-- Equal memories are equal data. -/
theorem eq_of_read {m n : Memory} (hm : Memory.wf m = true) (hn : Memory.wf n = true) (h : ∀ a, Memory.read m a = Memory.read n a) : m = n :=
  eq_of_readFrom hm hn h

/-- `MemWrite` keeps the canonical form. -/
theorem memWrite_wf {m m' : Memory} {a : Nat} {v : Byte} (h : Memory.wf m = true) (hw : memWrite m a v = .ok m') :
    Memory.wf m' = true := by
  unfold memWrite at hw
  split at hw
  · cases hw
    exact write_wf h ‹_›
  · cases hw

/-- The reset memory is canonical. -/
theorem reset_memory_wf : Memory.wf State.reset.M = true := rfl

/-- An image's memory is canonical, from its first address on. -/
theorem imageFrom_wf (image : Nat → Byte) (n a : Nat) (h : a + n ≤ Config.memSize) : wfFrom a (imageFrom image n a) = true := by
  induction n generalizing a with
  | zero => rfl
  | succ n ih =>
    rw [imageFrom]
    split
    · exact wfFrom_mono (ih (a + 1) (by omega)) (by omega)
    · exact wfFrom_cons.mpr ⟨le_rfl, by omega, by assumption, ih (a + 1) (by omega)⟩

/-- An image's memory reads as the image. -/
theorem imageFrom_read (image : Nat → Byte) (n a c : Nat) (hn : a + n ≤ Config.memSize) (hac : a ≤ c) (hc : c < a + n) :
    Memory.read (imageFrom image n a) c = image c := by
  induction n generalizing a with
  | zero => omega
  | succ n ih =>
    rw [imageFrom]
    by_cases hca : c = a
    · subst c
      split
      · rename_i hfill
        rw [hfill]
        exact read_below (imageFrom_wf image n (a + 1) (by omega)) (by omega)
      · simp [Memory.read]
    · have := ih (a + 1) (by omega) (by omega) (by omega)
      split
      · exact this
      · rw [Memory.read, if_neg hca, this]

/-- The image the host hands over, laid out, is canonical. -/
theorem ofImage_wf (image : Nat → Byte) : Memory.wf (Memory.ofImage image) = true :=
  imageFrom_wf image Config.memSize 0 (by omega)

/-- Placing a word keeps the canonical form where both its bytes lie in memory. -/
theorem placeWordAtPc_wf {s : State} (w : Word) (h : Memory.wf s.M = true) (hp : s.pc.toNat + 1 < Config.memSize) :
    Memory.wf (s.placeWordAtPc w).M = true :=
  write_wf (write_wf h (by omega)) hp

end Sys2Proof.Machine
end

