-- ==== Sys2Proof/Laws/State.lean ====
section
/-! SUPPORT. What each update of the state does to each field, and what the accessors read after it. -/

namespace Sys2Proof.Machine

variable (s : State)

@[simp] theorem advance_V : s.advance.V = s.V := rfl
@[simp] theorem advance_pc : s.advance.pc = s.pc + 2#16 := rfl
@[simp] theorem advance_sp : s.advance.sp = s.sp := rfl
@[simp] theorem advance_S : s.advance.S = s.S := rfl
@[simp] theorem advance_M : s.advance.M = s.M := rfl
@[simp] theorem advance_status : s.advance.status = s.status := rfl
@[simp] theorem advance_signals : s.advance.signals = s.signals := rfl

@[simp] theorem setPc_V (w : Word) : (s.setPc w).V = s.V := rfl
@[simp] theorem setPc_pc (w : Word) : (s.setPc w).pc = w := rfl
@[simp] theorem setPc_sp (w : Word) : (s.setPc w).sp = s.sp := rfl
@[simp] theorem setPc_S (w : Word) : (s.setPc w).S = s.S := rfl
@[simp] theorem setPc_M (w : Word) : (s.setPc w).M = s.M := rfl
@[simp] theorem setPc_status (w : Word) : (s.setPc w).status = s.status := rfl
@[simp] theorem setPc_signals (w : Word) : (s.setPc w).signals = s.signals := rfl

@[simp] theorem jumpTo_V (n : Addr12) : (s.jumpTo n).V = s.V := rfl
@[simp] theorem jumpTo_pc (n : Addr12) : (s.jumpTo n).pc = n.setWidth 16 := rfl
@[simp] theorem jumpTo_sp (n : Addr12) : (s.jumpTo n).sp = s.sp := rfl
@[simp] theorem jumpTo_S (n : Addr12) : (s.jumpTo n).S = s.S := rfl
@[simp] theorem jumpTo_M (n : Addr12) : (s.jumpTo n).M = s.M := rfl
@[simp] theorem jumpTo_status (n : Addr12) : (s.jumpTo n).status = s.status := rfl
@[simp] theorem jumpTo_signals (n : Addr12) : (s.jumpTo n).signals = s.signals := rfl

@[simp] theorem emitClear_V : s.emitClear.V = s.V := rfl
@[simp] theorem emitClear_pc : s.emitClear.pc = s.pc := rfl
@[simp] theorem emitClear_sp : s.emitClear.sp = s.sp := rfl
@[simp] theorem emitClear_S : s.emitClear.S = s.S := rfl
@[simp] theorem emitClear_M : s.emitClear.M = s.M := rfl
@[simp] theorem emitClear_status : s.emitClear.status = s.status := rfl
@[simp] theorem emitClear_signals : s.emitClear.signals = s.signals ++ [.clearDisplay] := rfl

@[simp] theorem startRun_V : s.startRun.V = s.V := rfl
@[simp] theorem startRun_pc : s.startRun.pc = s.pc := rfl
@[simp] theorem startRun_sp : s.startRun.sp = s.sp := rfl
@[simp] theorem startRun_S : s.startRun.S = s.S := rfl
@[simp] theorem startRun_M : s.startRun.M = s.M := rfl
@[simp] theorem startRun_status : s.startRun.status = .running := rfl
@[simp] theorem startRun_signals : s.startRun.signals = s.signals := rfl

@[simp] theorem enterHalted_V : s.enterHalted.V = s.V := rfl
@[simp] theorem enterHalted_pc : s.enterHalted.pc = s.pc := rfl
@[simp] theorem enterHalted_sp : s.enterHalted.sp = s.sp := rfl
@[simp] theorem enterHalted_S : s.enterHalted.S = s.S := rfl
@[simp] theorem enterHalted_M : s.enterHalted.M = s.M := rfl
@[simp] theorem enterHalted_status : s.enterHalted.status = .halted := rfl
@[simp] theorem enterHalted_signals : s.enterHalted.signals = s.signals := rfl

@[simp] theorem raiseFatal_V (r : FaultRecord) : (s.raiseFatal r).V = s.V := rfl
@[simp] theorem raiseFatal_pc (r : FaultRecord) : (s.raiseFatal r).pc = s.pc := rfl
@[simp] theorem raiseFatal_sp (r : FaultRecord) : (s.raiseFatal r).sp = s.sp := rfl
@[simp] theorem raiseFatal_S (r : FaultRecord) : (s.raiseFatal r).S = s.S := rfl
@[simp] theorem raiseFatal_M (r : FaultRecord) : (s.raiseFatal r).M = s.M := rfl
@[simp] theorem raiseFatal_status (r : FaultRecord) : (s.raiseFatal r).status = .faulted r := rfl
@[simp] theorem raiseFatal_signals (r : FaultRecord) : (s.raiseFatal r).signals = s.signals := rfl

@[simp] theorem raiseInHandler_V (k : FaultKind) (op : Word) : (s.raiseInHandler k op).V = s.V := rfl
@[simp] theorem raiseInHandler_pc (k : FaultKind) (op : Word) : (s.raiseInHandler k op).pc = s.pc := rfl
@[simp] theorem raiseInHandler_sp (k : FaultKind) (op : Word) : (s.raiseInHandler k op).sp = s.sp := rfl
@[simp] theorem raiseInHandler_S (k : FaultKind) (op : Word) : (s.raiseInHandler k op).S = s.S := rfl
@[simp] theorem raiseInHandler_M (k : FaultKind) (op : Word) : (s.raiseInHandler k op).M = s.M := rfl
@[simp] theorem raiseInHandler_status (k : FaultKind) (op : Word) : (s.raiseInHandler k op).status = .faulted { kind := k, pc := s.instrAddr, opcode := some op, addr := none } := rfl
@[simp] theorem raiseInHandler_signals (k : FaultKind) (op : Word) : (s.raiseInHandler k op).signals = s.signals := rfl

@[simp] theorem raiseUnimplemented_V (op : Word) : (s.raiseUnimplemented op).V = s.V := rfl
@[simp] theorem raiseUnimplemented_pc (op : Word) : (s.raiseUnimplemented op).pc = s.pc := rfl
@[simp] theorem raiseUnimplemented_sp (op : Word) : (s.raiseUnimplemented op).sp = s.sp := rfl
@[simp] theorem raiseUnimplemented_S (op : Word) : (s.raiseUnimplemented op).S = s.S := rfl
@[simp] theorem raiseUnimplemented_M (op : Word) : (s.raiseUnimplemented op).M = s.M := rfl
@[simp] theorem raiseUnimplemented_status (op : Word) : (s.raiseUnimplemented op).status = .faulted { kind := .unimplementedOpcode, pc := s.instrAddr, opcode := some op, addr := none } := rfl
@[simp] theorem raiseUnimplemented_signals (op : Word) : (s.raiseUnimplemented op).signals = s.signals := rfl

@[simp] theorem raiseFetchFault_V (a : Nat) : (s.raiseFetchFault a).V = s.V := rfl
@[simp] theorem raiseFetchFault_pc (a : Nat) : (s.raiseFetchFault a).pc = s.pc := rfl
@[simp] theorem raiseFetchFault_sp (a : Nat) : (s.raiseFetchFault a).sp = s.sp := rfl
@[simp] theorem raiseFetchFault_S (a : Nat) : (s.raiseFetchFault a).S = s.S := rfl
@[simp] theorem raiseFetchFault_M (a : Nat) : (s.raiseFetchFault a).M = s.M := rfl
@[simp] theorem raiseFetchFault_status (a : Nat) : (s.raiseFetchFault a).status = .faulted { kind := .outOfBoundsAccess, pc := s.pc, opcode := none, addr := some (BitVec.ofNat 16 a) } := rfl
@[simp] theorem raiseFetchFault_signals (a : Nat) : (s.raiseFetchFault a).signals = s.signals := rfl

@[simp] theorem writeV_V (x : Reg) (b : Byte) : (s.writeV x b).V = s.V.set x.val b := rfl
@[simp] theorem writeV_pc (x : Reg) (b : Byte) : (s.writeV x b).pc = s.pc := rfl
@[simp] theorem writeV_sp (x : Reg) (b : Byte) : (s.writeV x b).sp = s.sp := rfl
@[simp] theorem writeV_S (x : Reg) (b : Byte) : (s.writeV x b).S = s.S := rfl
@[simp] theorem writeV_M (x : Reg) (b : Byte) : (s.writeV x b).M = s.M := rfl
@[simp] theorem writeV_status (x : Reg) (b : Byte) : (s.writeV x b).status = s.status := rfl
@[simp] theorem writeV_signals (x : Reg) (b : Byte) : (s.writeV x b).signals = s.signals := rfl

@[simp] theorem aluWrite_V (f : Byte → Byte → Byte) (x y : Reg) : (s.aluWrite f x y).V = s.V.set x.val (f (s.readV x) (s.readV y)) := rfl
@[simp] theorem aluWrite_pc (f : Byte → Byte → Byte) (x y : Reg) : (s.aluWrite f x y).pc = s.pc := rfl
@[simp] theorem aluWrite_sp (f : Byte → Byte → Byte) (x y : Reg) : (s.aluWrite f x y).sp = s.sp := rfl
@[simp] theorem aluWrite_S (f : Byte → Byte → Byte) (x y : Reg) : (s.aluWrite f x y).S = s.S := rfl
@[simp] theorem aluWrite_M (f : Byte → Byte → Byte) (x y : Reg) : (s.aluWrite f x y).M = s.M := rfl
@[simp] theorem aluWrite_status (f : Byte → Byte → Byte) (x y : Reg) : (s.aluWrite f x y).status = s.status := rfl
@[simp] theorem aluWrite_signals (f : Byte → Byte → Byte) (x y : Reg) : (s.aluWrite f x y).signals = s.signals := rfl

@[simp] theorem writeCarry_V (c : Byte) : (s.writeCarry c).V = s.V.set regVF.val c := rfl
@[simp] theorem writeCarry_pc (c : Byte) : (s.writeCarry c).pc = s.pc := rfl
@[simp] theorem writeCarry_sp (c : Byte) : (s.writeCarry c).sp = s.sp := rfl
@[simp] theorem writeCarry_S (c : Byte) : (s.writeCarry c).S = s.S := rfl
@[simp] theorem writeCarry_M (c : Byte) : (s.writeCarry c).M = s.M := rfl
@[simp] theorem writeCarry_status (c : Byte) : (s.writeCarry c).status = s.status := rfl
@[simp] theorem writeCarry_signals (c : Byte) : (s.writeCarry c).signals = s.signals := rfl

@[simp] theorem skipIf_V (c : Bool) : (s.skipIf c).V = s.V := by cases c <;> rfl
theorem skipIf_pc (c : Bool) : (s.skipIf c).pc = if c then s.pc + 2#16 else s.pc := by cases c <;> rfl
@[simp] theorem skipIf_sp (c : Bool) : (s.skipIf c).sp = s.sp := by cases c <;> rfl
@[simp] theorem skipIf_S (c : Bool) : (s.skipIf c).S = s.S := by cases c <;> rfl
@[simp] theorem skipIf_M (c : Bool) : (s.skipIf c).M = s.M := by cases c <;> rfl
@[simp] theorem skipIf_status (c : Bool) : (s.skipIf c).status = s.status := by cases c <;> rfl
@[simp] theorem skipIf_signals (c : Bool) : (s.skipIf c).signals = s.signals := by cases c <;> rfl

/-- After the advance, the handler's instruction address is the fetch address (10_state R26). -/
@[simp] theorem instrAddr_advance : s.advance.instrAddr = s.pc := by
  simp [State.instrAddr]

/-- A register read after a register write. -/
theorem readV_writeV (x r : Reg) (b : Byte) : (s.writeV x b).readV r = if r = x then b else s.readV r := by
  simp only [State.readV, State.writeV, Fin.getElem_fin, Vector.getElem_set, Fin.ext_iff, eq_comm]

@[simp] theorem readV_writeV_same (x : Reg) (b : Byte) : (s.writeV x b).readV x = b := by
  simp [readV_writeV]

theorem readV_writeV_other {x r : Reg} (b : Byte) (h : r ≠ x) : (s.writeV x b).readV r = s.readV r := by
  simp [readV_writeV, h]

/-- A register is read from the register file alone. -/
theorem readV_congr {s t : State} (h : t.V = s.V) (r : Reg) : t.readV r = s.readV r := by
  simp [State.readV, h]

/-- A slot is read from the call stack alone. -/
theorem slot_congr {s t : State} (h : t.S = s.S) (i : Fin 16) : t.slot i = s.slot i := by
  simp [State.slot, h]

/-- A byte is read from memory alone. -/
theorem byteAt_congr {s t : State} (h : t.M = s.M) (a : Nat) : t.byteAt a = s.byteAt a := by
  simp [State.byteAt, h]

/-! ### The host's transactions -/

/-- What a transaction before `run()` answers at its time. -/
theorem beforeRun_of_notYetRunning {s : State} (h : s.status = .notYetRunning) (o : Host.Outcome State Fault Refusal) :
    beforeRun s o = o := by
  simp [beforeRun, h]

/-- Such a transaction answers a next state at its time alone, and it is the transaction's own. -/
theorem beforeRun_next {s t : State} {o : Host.Outcome State Fault Refusal} :
    beforeRun s o = .next t ↔ s.status = .notYetRunning ∧ o = .next t := by
  unfold beforeRun
  split <;> simp [*]

/-- At any other time it stops. -/
theorem beforeRun_of_started {s : State} (h : s.status ≠ .notYetRunning) (o : Host.Outcome State Fault Refusal) :
    beforeRun s o = .fault .hostNotBeforeRun := by
  unfold beforeRun
  split
  · contradiction
  all_goals rfl

/-- A sequence answers a next state exactly when its first part does and the rest does from there. -/
theorem andThen_next {o : Host.Outcome State Fault Refusal} {f : State → Host.Outcome State Fault Refusal} {t : State} :
    andThen o f = .next t ↔ ∃ s, o = .next s ∧ f s = .next t := by
  cases o <;> simp [andThen]

end Sys2Proof.Machine
end

