-- ==== Sys2Proof/Laws/Ops.lean ====
section
/-! SUPPORT. What each shared operation can do, said once: the call stack, the ALU's sum and carry. -/

namespace Sys2Proof.Machine

/-- A push succeeds exactly below 16, writes slot `sp` and counts it (42_control_flow R132). -/
theorem push?_spec {s t : State} {w : Word} :
    s.push? w = some t ↔ ∃ h : s.sp.val < 16,
      t = { s with S := s.S.set s.sp.val w h, sp := ⟨s.sp.val + 1, by omega⟩ } := by
  unfold State.push?
  split
  · rename_i h
    simp [h, eq_comm]
  · rename_i h
    simp [h]

theorem push?_none {s : State} {w : Word} : s.push? w = none ↔ s.sp.val = 16 := by
  unfold State.push?
  split <;> simp <;> omega

/-- A pop succeeds exactly above 0, gives slot `sp - 1` and moves `sp` alone (42_control_flow R130). -/
theorem pop?_spec {s t : State} {w : Word} :
    s.pop? = some (w, t) ↔ ∃ h : 0 < s.sp.val,
      w = s.S[s.sp.val - 1]'(by omega) ∧ t = { s with sp := ⟨s.sp.val - 1, by omega⟩ } := by
  unfold State.pop?
  split
  · rename_i h
    simp [h, eq_comm]
  · rename_i h
    simp [h]

theorem pop?_none {s : State} : s.pop? = none ↔ s.sp.val = 0 := by
  unfold State.pop?
  split <;> simp <;> omega

/-- A slot read after a push. -/
theorem slot_push {s t : State} {w : Word} (h : s.push? w = some t) (i : Fin 16) :
    t.slot i = if i.val = s.sp.val then w else s.slot i := by
  obtain ⟨hlt, rfl⟩ := push?_spec.mp h
  simp [State.slot, Vector.getElem_set, eq_comm]

/-- The 16-bit sum of the spec's ALU is bit-vector addition (45_alu R168). -/
theorem wrappedSum_eq_add (a b : Byte) : wrappedSum a b = a + b := by
  apply BitVec.eq_of_toNat_eq
  simp [wrappedSum, exactSum, BitVec.toNat_add]

/-- The wrapped sum as a number (45_alu R165). -/
theorem wrappedSum_toNat (a b : Byte) : (wrappedSum a b).toNat = (a.toNat + b.toNat) % 256 := by
  simp [wrappedSum_eq_add, BitVec.toNat_add]

/-- The carry is 1 or 0 (45_alu R166). -/
theorem carryOf_toNat (a b : Byte) : (carryOf a b).toNat = if a.toNat + b.toNat > 255 then 1 else 0 := by
  unfold carryOf exactSum
  split <;> rfl

end Sys2Proof.Machine
end

