-- ==== Sys2Proof/Laws/PerInstr.lean ====
section
/-! SUPPORT. Facts about every instruction as syntax, one lemma per constructor. -/

namespace Sys2Proof.Laws.EncodesInRow

/-- The instruction's word lies in the instruction's row of the decode table (30_encoding R73). -/
def Statement (i : Instr) : Prop := formMatches (instrForm i) (encode i) = true

theorem halt : Statement .halt := rfl

theorem clearDisplay : Statement .clearDisplay := rfl

theorem ret : Statement .ret := rfl

theorem jump (nnn : Addr12) : Statement (.jump nnn) :=
  (formMatches_class rfl rfl _).mpr (fieldC_wordN _ _)

theorem call (nnn : Addr12) : Statement (.call nnn) :=
  (formMatches_class rfl rfl _).mpr (fieldC_wordN _ _)

theorem skipEqImm (x : Reg) (kk : Byte) : Statement (.skipEqImm x kk) :=
  (formMatches_class rfl rfl _).mpr (fieldC_wordN _ _)

theorem skipNeImm (x : Reg) (kk : Byte) : Statement (.skipNeImm x kk) :=
  (formMatches_class rfl rfl _).mpr (fieldC_wordN _ _)

theorem skipEqReg (x y : Reg) : Statement (.skipEqReg x y) :=
  (formMatches_selector rfl rfl _).mpr ⟨fieldC_wordN _ _, fieldD_wordXYD _ _ _ _⟩

theorem loadImm (x : Reg) (kk : Byte) : Statement (.loadImm x kk) :=
  (formMatches_class rfl rfl _).mpr (fieldC_wordN _ _)

theorem addImm (x : Reg) (kk : Byte) : Statement (.addImm x kk) :=
  (formMatches_class rfl rfl _).mpr (fieldC_wordN _ _)

theorem copy (x y : Reg) : Statement (.copy x y) :=
  (formMatches_selector rfl rfl _).mpr ⟨fieldC_wordN _ _, fieldD_wordXYD _ _ _ _⟩

theorem bitOr (x y : Reg) : Statement (.bitOr x y) :=
  (formMatches_selector rfl rfl _).mpr ⟨fieldC_wordN _ _, fieldD_wordXYD _ _ _ _⟩

theorem bitAnd (x y : Reg) : Statement (.bitAnd x y) :=
  (formMatches_selector rfl rfl _).mpr ⟨fieldC_wordN _ _, fieldD_wordXYD _ _ _ _⟩

theorem bitXor (x y : Reg) : Statement (.bitXor x y) :=
  (formMatches_selector rfl rfl _).mpr ⟨fieldC_wordN _ _, fieldD_wordXYD _ _ _ _⟩

theorem addReg (x y : Reg) : Statement (.addReg x y) :=
  (formMatches_selector rfl rfl _).mpr ⟨fieldC_wordN _ _, fieldD_wordXYD _ _ _ _⟩

end Sys2Proof.Laws.EncodesInRow
end

