-- ==== Sys2Proof/Laws/Step.lean ====
section
/-! SUPPORT. What a fetch, a handler and a step can do, said once. -/

namespace Sys2Proof.Machine

/-! ### Fetch -/

/-- A fetch answers a word exactly when both its bytes lie in memory (40_engine R101). -/
theorem fetch_ok_iff {s : State} {op : Word} : fetch s = .ok op ↔ FetchesWord s op := by
  unfold fetch memRead FetchesWord State.byteAt
  by_cases h : s.pc.toNat + 1 < Config.memSize
  · simp [h, show s.pc.toNat < Config.memSize by omega, eq_comm]
  · by_cases h' : s.pc.toNat < Config.memSize <;> simp [h, h']

/-- A fetch fails exactly at 0xFFF or above, and names the first address outside memory (20_memory R61). -/
theorem fetch_error_iff {s : State} {a : Nat} :
    fetch s = .error a ↔ (0xFFF ≤ s.pc.toNat ∧ a = if s.pc.toNat = 0xFFF then 0x1000 else s.pc.toNat) := by
  unfold fetch memRead
  by_cases h : s.pc.toNat < 4096
  · by_cases h' : s.pc.toNat + 1 < 4096
    · simp [Config.memSize, h, h']
      omega
    · have : s.pc.toNat = 0xFFF := by omega
      simp [Config.memSize, this, eq_comm]
  · have h1 : s.pc.toNat ≠ 0xFFF := by omega
    simp [Config.memSize, h, h1, eq_comm]
    omega

/-- The word at a state is unique. -/
theorem fetchesWord_unique {s : State} {op op' : Word} (h : FetchesWord s op) (h' : FetchesWord s op') : op = op' :=
  h.2.trans h'.2.symm

/-- The advance is exact after a successful fetch (40_engine R102). -/
theorem fetchesWord_advance {s : State} {op : Word} (h : FetchesWord s op) : s.advance.pc.toNat = s.pc.toNat + 2 := by
  have := h.1
  simp only [Config.memSize] at this
  rw [advance_pc, BitVec.toNat_add]
  simp
  omega

/-! ### Handlers -/

theorem execRet_of_pop {s t : State} {w : Word} (h : s.pop? = some (w, t)) : exec .ret s = .next (t.setPc w) := by
  show execRet s = _
  unfold execRet
  rw [h]

theorem execRet_of_empty {s : State} (h : s.pop? = none) :
    exec .ret s = .next (s.raiseInHandler .stackUnderflow (encode .ret)) := by
  show execRet s = _
  unfold execRet
  rw [h]

theorem execCall_of_push {s t : State} {nnn : Addr12} (h : s.push? s.pc = some t) :
    exec (.call nnn) s = .next (t.jumpTo nnn) := by
  show execCall nnn s = _
  unfold execCall
  rw [h]

theorem execCall_of_full {s : State} {nnn : Addr12} (h : s.push? s.pc = none) :
    exec (.call nnn) s = .next (s.raiseInHandler .stackOverflow (encode (.call nnn))) := by
  show execCall nnn s = _
  unfold execCall
  rw [h]

/-- What a return does (42_control_flow R130). -/
theorem execRet_cases (s : State) :
    (∃ w t, s.pop? = some (w, t) ∧ exec .ret s = .next (t.setPc w)) ∨
    (s.sp.val = 0 ∧ exec .ret s = .next (s.raiseInHandler .stackUnderflow (encode .ret))) := by
  cases h : s.pop? with
  | none => exact .inr ⟨pop?_none.mp h, execRet_of_empty h⟩
  | some p => exact .inl ⟨p.1, p.2, rfl, execRet_of_pop h⟩

/-- What a call does (42_control_flow R132). -/
theorem execCall_cases (nnn : Addr12) (s : State) :
    (∃ t, s.push? s.pc = some t ∧ exec (.call nnn) s = .next (t.jumpTo nnn)) ∨
    (s.sp.val = 16 ∧ exec (.call nnn) s = .next (s.raiseInHandler .stackOverflow (encode (.call nnn)))) := by
  cases h : s.push? s.pc with
  | none => exact .inr ⟨push?_none.mp h, execCall_of_full h⟩
  | some t => exact .inl ⟨t, rfl, execCall_of_push h⟩

/-- Every meaning answers a next state: no instruction of this core stops the model. -/
theorem exec_next (i : Instr) (s : State) : ∃ t, exec i s = .next t := by
  cases i
  case ret => rcases execRet_cases s with ⟨w, t, _, h⟩ | ⟨_, h⟩ <;> exact ⟨_, h⟩
  case call nnn => rcases execCall_cases nnn s with ⟨t, _, h⟩ | ⟨_, h⟩ <;> exact ⟨_, h⟩
  all_goals exact ⟨_, rfl⟩

/-! ### A step -/

/-- Every way a step can end in a next state (40_engine R100). -/
theorem step_cases {s t : State} (h : step s = .next t) :
    s.status = .running ∧
    ((∃ a, fetch s = .error a ∧ t = s.raiseFetchFault a) ∨
     (∃ op, FetchesWord s op ∧ decode op = .unknown op ∧ t = s.advance.raiseUnimplemented op) ∨
     (∃ op i, FetchesWord s op ∧ decode op = .known i ∧ exec i s.advance = .next t)) := by
  unfold step at h
  split at h
  · cases h
  · refine ⟨‹_›, ?_⟩
    unfold cycle at h
    split at h
    · cases h
      exact .inl ⟨_, ‹_›, rfl⟩
    · rename_i op hop
      have hf := fetch_ok_iff.mp hop
      split at h
      · rename_i w hw
        cases h
        obtain rfl := decode_unknown hw
        exact .inr (.inl ⟨_, hf, hw, rfl⟩)
      · rename_i i hi
        exact .inr (.inr ⟨op, i, hf, hi, h⟩)
  · cases h
  · cases h

/-- The step of a running machine at a word that decodes (40_engine R104). -/
theorem step_known {s : State} {op : Word} {i : Instr} (hr : s.status = .running) (hf : FetchesWord s op)
    (hd : decode op = .known i) : step s = exec i s.advance := by
  simp [step, hr, cycle, fetch_ok_iff.mpr hf, hd]

/-- The step of a running machine at an Unknown word (40_engine R104, 60_exceptions R183). -/
theorem step_unknown {s : State} {op : Word} (hr : s.status = .running) (hf : FetchesWord s op)
    (hd : decode op = .unknown op) : step s = .next (s.advance.raiseUnimplemented op) := by
  simp [step, hr, cycle, fetch_ok_iff.mpr hf, hd]

/-- The step of a running machine whose fetch fails (20_memory R61). -/
theorem step_fetch_fault {s : State} {a : Nat} (hr : s.status = .running) (hf : fetch s = .error a) :
    step s = .next (s.raiseFetchFault a) := by
  simp [step, hr, cycle, hf]

/-! ### What a look at the run shows -/

theorem runSeenAt_notYetRunning {s : State} (h : s.status = .notYetRunning) : runSeenAt s = .notStarted s := by
  simp [runSeenAt, h]

theorem runSeenAt_running {s : State} (h : s.status = .running) : runSeenAt s = .stillRunning s := by
  simp [runSeenAt, h]

theorem runSeenAt_halted {s : State} (h : s.status = .halted) : runSeenAt s = .returned s := by
  simp [runSeenAt, h]

theorem runSeenAt_faulted {s : State} {r : FaultRecord} (h : s.status = .faulted r) : runSeenAt s = .returned s := by
  simp [runSeenAt, h]

/-! ### Where the host places a word -/

/-- The next fetch reads the word placed at `pc`. -/
theorem fetch_placeWordAtPc {s : State} (w : Word) (hm : Memory.wf s.M = true) (hp : s.pc.toNat + 1 < Config.memSize) :
    FetchesWord (s.placeWordAtPc w) w := by
  have h1 := write_wf (v := hiByte w) hm (show s.pc.toNat < Config.memSize by omega)
  refine ⟨hp, ?_⟩
  simp only [State.byteAt, State.placeWordAtPc]
  rw [read_write h1, read_write h1, read_write hm]
  simp only [if_true, if_neg (show s.pc.toNat ≠ s.pc.toNat + 1 by omega)]
  have h := BitVec.extractLsb'_append_extractLsb'_eq_extractLsb' (x := w) (start₁ := 0) (start₂ := 8) (len₁ := 8) (len₂ := 8) rfl
  exact (BitVec.extractLsb'_eq_self (x := w)).symm.trans h.symm

/-- The step after `withFetchWord` fetches the word. -/
theorem fetch_withFetchWord {s : State} (nbits w : Nat) (hm : Memory.wf s.M = true) :
    fetch (s.withFetchWord nbits w) = .ok (tableWord nbits w) := by
  refine fetch_ok_iff.mpr (fetch_placeWordAtPc _ hm ?_)
  simp only [State.readyToFetch]
  split
  · assumption
  · decide

end Sys2Proof.Machine
end

