-- ==== Sys2Proof/Tests/Slice0.lean ====
section
/-! SUPPORT. The model's own tests: words from the spec's encodings, one step from small states with the results of 95_test_vectors, ill-formed source refused, and a witness for each statement that has hypotheses. -/

namespace Sys2Proof.Tests

open Sys2Proof.Machine

/-! ### Small states -/

/-- The reset state with `run()` started. -/
def runningReset : State := State.reset.startRun

/-- That state with a word at an address and `pc` there. -/
def stateAt (a : Word) (w : Word) : State := (runningReset.setPc a).placeWordAtPc w

/-- The next state, where there is one. -/
def nextOf (s : State) : State :=
  match step s with
  | .next t => t
  | _ => s

/-- `sp` and one slot set. -/
def withFrame (s : State) (n : Fin 17) (i : Fin 16) (w : Word) : State := { s with sp := n, S := s.S.set i.val w }

/-! ### Decoding words written out from 30_encoding R73 -/

theorem test_decode_halt : decode 0b0000000000000000#16 = .known .halt := by decide
theorem test_decode_clear_display : decode 0b0000000011100000#16 = .known .clearDisplay := by decide
theorem test_decode_return : decode 0b0000000011101110#16 = .known .ret := by decide
theorem test_decode_jump : decode 0b0001001000000100#16 = .known (.jump 0x204#12) := by decide
theorem test_decode_call : decode 0b0010101010111100#16 = .known (.call 0xABC#12) := by decide
theorem test_decode_skip_eq_imm : decode 0b0011000000000101#16 = .known (.skipEqImm 0 5#8) := by decide
theorem test_decode_skip_ne_imm : decode 0b0100110011111111#16 = .known (.skipNeImm 12 0xFF#8) := by decide
theorem test_decode_skip_eq_reg : decode 0b0101110011010000#16 = .known (.skipEqReg 12 13) := by decide
theorem test_decode_load_imm : decode 0b0110000111111111#16 = .known (.loadImm 1 0xFF#8) := by decide
theorem test_decode_add_imm : decode 0b0111101010000000#16 = .known (.addImm 10 0x80#8) := by decide
theorem test_decode_copy : decode 0b1000110010100000#16 = .known (.copy 12 10) := by decide
theorem test_decode_or : decode 0b1000110010110001#16 = .known (.bitOr 12 11) := by decide
theorem test_decode_and : decode 0b1000110010100010#16 = .known (.bitAnd 12 10) := by decide
theorem test_decode_xor : decode 0b1000110010110011#16 = .known (.bitXor 12 11) := by decide
theorem test_decode_add_reg : decode 0b1000111100010100#16 = .known (.addReg 15 1) := by decide

/-- Vectors S4, S5, K8, A20, U1: Unknown words next to Known ones. -/
theorem test_decode_unknown : [0x0001#16, 0x00E1#16, 0x0123#16, 0x5121#16, 0x8015#16, 0x801E#16, 0x9120#16, 0xFFFF#16].map decode
    = [0x0001#16, 0x00E1#16, 0x0123#16, 0x5121#16, 0x8015#16, 0x801E#16, 0x9120#16, 0xFFFF#16].map Decoded.unknown := by decide

/-- R54: the byte at the lower address is the high byte. -/
theorem test_decode_bytes_big_endian : decodeTableWord 16 0x1234 = some (.jump 0x234#12) ∧ bytesOfWord 0x1234#16 = [0x12#8, 0x34#8] := by decide

/-- The host's placing of a word from reset: the very next step runs it. -/
theorem test_with_fetch_word : (nextOf (State.reset.withFetchWord 16 0x61FF)).readV 1 = 0xFF#8 := by decide

/-! ### Source checks (R79): one ill-formed term for each check -/

theorem test_source_accepts : (SrcInstr.mk "skip-if-equal-registers" [.reg 12, .reg 13]).check = .ok (.skipEqReg 12 13) := by rfl
theorem test_source_alias_by_shape : (SrcInstr.mk "LD" [.reg 1, .reg 2]).check = .ok (.copy 1 2) := by rfl
theorem smoke_unknown_mnemonic : (SrcInstr.mk "subtract" [.reg 1, .reg 2]).check = .error .unknownMnemonic := by rfl
theorem smoke_operand_shape : (SrcInstr.mk "jump" [.reg 1]).check = .error .operandShape := by rfl
theorem smoke_register_range : (SrcInstr.mk "copy" [.reg 1, .reg 16]).check = .error .registerRange := by rfl
theorem smoke_byte_range : (SrcInstr.mk "load-immediate" [.reg 1, .num 256]).check = .error .byteRange := by rfl
theorem smoke_address_range : (SrcInstr.mk "call" [.num 4096]).check = .error .addressRange := by rfl
theorem smoke_wf_refuses : (SrcInstr.mk "call" [.num 4096]).wf = false ∧ (SrcInstr.mk "call" [.num 4095]).wf = true := by decide

/-- Program P2's loop, assembled at 0x204: the label is an address. -/
theorem test_assemble_loop : assemble 0x204 ["loop: add-immediate V0, 1", "skip-if-equal-immediate V0,5", "jump loop"]
    = .ok [0x70#8, 0x01#8, 0x30#8, 0x05#8, 0x12#8, 0x04#8] := by rfl

/-! ### One step each, from 95_test_vectors -/

/-- S1. -/
theorem test_halt : (nextOf (stateAt 0x004 0x0000)).status = .halted ∧ (nextOf (stateAt 0x004 0x0000)).pc = 0x006#16 := by decide
/-- S2. -/
theorem test_clear_display : (nextOf (stateAt 0x200 0x00E0)).signals = [.clearDisplay] ∧ (nextOf (stateAt 0x200 0x00E0)).pc = 0x202#16 := by decide
/-- C2: the slot keeps its value. -/
theorem test_return : let t := nextOf (withFrame (stateAt 0x104 0x00EE) 1 0 0x0002); t.sp = 0 ∧ t.pc = 0x0002#16 ∧ t.slot 0 = 0x0002#16 := by decide
/-- C3. -/
theorem test_return_underflow : let t := nextOf (stateAt 0x300 0x00EE)
    t.status = .faulted ⟨.stackUnderflow, 0x300#16, some 0x00EE#16, none⟩ ∧ t.pc = 0x302#16 ∧ t.sp = 0 := by decide
/-- C7: an odd target is accepted. -/
theorem test_jump_odd : (nextOf (stateAt 0x200 0x1201)).pc = 0x201#16 := by decide
/-- C8: a call at 0xFFE pushes 0x1000. -/
theorem test_call_at_top : let t := nextOf (stateAt 0xFFE 0x2100); t.slot 0 = 0x1000#16 ∧ t.sp = 1 ∧ t.pc = 0x100#16 := by decide
/-- C5. -/
theorem test_call_overflow : let t := nextOf (withFrame (stateAt 0x400 0x2ABC) 16 15 0x0402)
    t.status = .faulted ⟨.stackOverflow, 0x400#16, some 0x2ABC#16, none⟩ ∧ t.pc = 0x402#16 ∧ t.sp = 16 ∧ t.slot 15 = 0x0402#16 := by decide
/-- K1, K2. -/
theorem test_skip_eq_imm : (nextOf ((stateAt 0x206 0x3005).writeV 0 5)).pc = 0x20A#16 ∧ (nextOf ((stateAt 0x206 0x3005).writeV 0 4)).pc = 0x208#16 := by decide
/-- K3, K4. -/
theorem test_skip_ne_imm : (nextOf ((stateAt 0x206 0x4005).writeV 0 5)).pc = 0x208#16 ∧ (nextOf ((stateAt 0x206 0x4005).writeV 0 4)).pc = 0x20A#16 := by decide
/-- K5, K6: V1 against V2, not against the nibble 2. -/
theorem test_skip_eq_reg : (nextOf (((stateAt 0x200 0x5120).writeV 1 2).writeV 2 7)).pc = 0x202#16 ∧
    (nextOf (((stateAt 0x200 0x5120).writeV 1 7).writeV 2 7)).pc = 0x204#16 := by decide
/-- I1. -/
theorem test_load_imm : (nextOf ((stateAt 0x200 0x61FF).writeV 1 0x12)).readV 1 = 0xFF#8 := by decide
/-- I3: no carry is written. -/
theorem test_add_imm_no_carry : let t := nextOf (((stateAt 0x200 0x7001).writeV 0 0xFF).writeV 15 0xAA); t.readV 0 = 0#8 ∧ t.readV 15 = 0xAA#8 := by decide
/-- I6: x = F gets the wrapped sum. -/
theorem test_add_imm_vf : (nextOf ((stateAt 0x200 0x7F01).writeV 15 0xFF)).readV 15 = 0#8 := by decide
/-- A2. -/
theorem test_copy_to_vf : (nextOf ((stateAt 0x200 0x8F10).writeV 1 0x42)).readV 15 = 0x42#8 := by decide
/-- A3. -/
theorem test_or : (nextOf (((stateAt 0x200 0x8011).writeV 0 0x0F).writeV 1 0xF0)).readV 0 = 0xFF#8 := by decide
/-- A4: VF is kept. -/
theorem test_and : let t := nextOf ((((stateAt 0x200 0x8012).writeV 0 0x0F).writeV 1 0xF0).writeV 15 0x55); t.readV 0 = 0#8 ∧ t.readV 15 = 0x55#8 := by decide
/-- A5. -/
theorem test_xor : (nextOf (((stateAt 0x200 0x8013).writeV 0 0xFF).writeV 1 0x0F)).readV 0 = 0xF0#8 := by decide
/-- A14: the sum in VF is overwritten by the carry. -/
theorem test_add_reg_vf_destination : (nextOf (((stateAt 0x200 0x8F14).writeV 15 0x10).writeV 1 0x20)).readV 15 = 0#8 := by decide
/-- A16: the old VF is the addend. -/
theorem test_add_reg_vf_source : let t := nextOf (((stateAt 0x200 0x80F4).writeV 0 1).writeV 15 0xFF); t.readV 0 = 0#8 ∧ t.readV 15 = 1#8 := by decide
/-- W3. -/
theorem test_unimplemented : let t := nextOf (stateAt 0x000 0xFFFF)
    t.status = .faulted ⟨.unimplementedOpcode, 0#16, some 0xFFFF#16, none⟩ ∧ t.pc = 0x002#16 := by decide
/-- E3, E4, E7. -/
theorem test_fetch_faults : [0xFFF#16, 0x1002#16, 0xFFFF#16].map (fun a => (nextOf (runningReset.setPc a)).status)
    = [.faulted ⟨.outOfBoundsAccess, 0xFFF#16, none, some 0x1000#16⟩, .faulted ⟨.outOfBoundsAccess, 0x1002#16, none, some 0x1002#16⟩,
       .faulted ⟨.outOfBoundsAccess, 0xFFFF#16, none, some 0xFFFF#16⟩] := by decide
/-- Writing the fill removes the entry, so equal memories are equal lists. -/
theorem test_memory_canonical : Memory.write (Memory.write [] 5 1) 5 0 = [] ∧ Memory.wf (Memory.write (Memory.write [] 7 2) 5 1) = true := by decide

/-! ### Witnesses: a state and operands that meet each statement's hypotheses -/

theorem aboutToRun_at {s : State} {op : Word} {i : Instr} (hr : s.status = .running) (hf : fetch s = .ok op) (hd : decode op = .known i) :
    AboutToRun s i := ⟨hr, op, fetch_ok_iff.mp hf, hd⟩

theorem witness_KnownWord : decode 0x8F14#16 = .known (.addReg 15 1) := by decide
theorem witness_SpecTable_row : ∃ row ∈ specRows, 0x8F14#16 &&& row.2.1 = row.1 := ⟨specRows[14], List.getElem_mem _, by decide⟩
theorem witness_SpecTable_no_row : ∀ row ∈ specRows, 0x8F15#16 &&& row.2.1 ≠ row.1 := by
  intro row h
  simp only [specRows, List.cons_append, List.nil_append, List.mem_cons, List.not_mem_nil, or_false] at h
  rcases h with rfl | rfl | rfl | rfl | rfl | rfl | rfl | rfl | rfl | rfl | rfl | rfl | rfl | rfl | rfl <;> decide
theorem witness_Unknown_each_class : [0x0FFF#16, 0x512F#16, 0x8015#16, 0x812F#16, 0x9000#16, 0xFFFF#16].all (fun w => decode w == .unknown w) = true := by decide
theorem witness_MnemonicAssembles : assembleItem [(['a'], 0xFFF)] (.instr "call".toList [.label ['a']]) = .ok [0x2F#8, 0xFF#8] := by rfl
/-- At the top of each field; one above it, the check refuses (smoke_register_range, smoke_byte_range, smoke_address_range). -/
theorem witness_AcceptedSource : (SrcInstr.mk "load-immediate" [.reg 15, .num 255]).check = .ok (.loadImm 15 255#8) ∧
    (SrcInstr.mk "call" [.num 4095]).check = .ok (.call 0xFFF#12) := ⟨rfl, rfl⟩
/-- An alias with two rows, told apart by its operands. -/
theorem witness_SourceSyntax : (SrcInstr.mk "SE" [.reg 1, .reg 2]).mnemonic ∈ specNames (.skipEqReg 1 2) ∧
    (SrcInstr.mk "SE" [.reg 1, .reg 2]).operands = specOperands (.skipEqReg 1 2) ∧
    (SrcInstr.mk "SE" [.reg 1, .reg 2]).check = .ok (.skipEqReg 1 2) := ⟨by decide, rfl, rfl⟩
theorem witness_StepRuns : (stateAt 0xFFE 0x7001).status = .running ∧ FetchesWord (stateAt 0xFFE 0x7001) 0x7001#16 ∧ decode 0x7001#16 = .known (.addImm 0 1#8) :=
  ⟨rfl, fetch_ok_iff.mp rfl, by decide⟩
theorem witness_UnknownWord : (stateAt 0xFFE 0x9120).status = .running ∧ FetchesWord (stateAt 0xFFE 0x9120) 0x9120#16 ∧ decode 0x9120#16 = .unknown 0x9120#16 :=
  ⟨rfl, fetch_ok_iff.mp rfl, by decide⟩
theorem witness_FetchOutside : (runningReset.setPc 0xFFF#16).status = .running ∧ 0xFFF ≤ (runningReset.setPc 0xFFF#16).pc.toNat ∧
    0xFFF ≤ (runningReset.setPc 0x1000#16).pc.toNat ∧ 0xFFF ≤ (runningReset.setPc 0xFFFF#16).pc.toNat := by decide
theorem witness_NoStep : runningReset.enterHalted.status = .halted ∧
    (runningReset.raiseFetchFault 0x1000).status = .faulted ⟨.outOfBoundsAccess, 0#16, none, some 0x1000#16⟩ := by decide
theorem witness_RunningSteps : runningReset.status = .running := by decide
/-- Each of the four fatal errors is reached, so each clause of the "exactly when" statement has a case. -/
theorem witness_FatalErrors : (step (runningReset.setPc 0xFFF#16) = .next (nextOf (runningReset.setPc 0xFFF#16))) ∧
    (step (stateAt 0 0xFFFF) = .next (nextOf (stateAt 0 0xFFFF))) ∧
    (AboutToRun (stateAt 0 0x00EE) .ret ∧ (stateAt 0 0x00EE).sp = 0) ∧
    (AboutToRun (withFrame (stateAt 0 0x2000) 16 0 2) (.call 0#12) ∧ (withFrame (stateAt 0 0x2000) 16 0 2).sp = 16) :=
  ⟨rfl, rfl, ⟨aboutToRun_at (op := 0x00EE#16) rfl rfl (by decide), rfl⟩, ⟨aboutToRun_at (op := 0x2000#16) rfl rfl (by decide), rfl⟩⟩
theorem witness_Precise : step (stateAt 0 0x00EE) = .next (nextOf (stateAt 0 0x00EE)) ∧
    (nextOf (stateAt 0 0x00EE)).status = .faulted ⟨.stackUnderflow, 0#16, some 0x00EE#16, none⟩ := ⟨rfl, by decide⟩
theorem witness_Halts : step (stateAt 0 0x0000) = .next (nextOf (stateAt 0 0x0000)) ∧ FetchesWord (stateAt 0 0x0000) 0x0000#16 := ⟨rfl, fetch_ok_iff.mp rfl⟩
theorem witness_Signals : step (stateAt 0 0x00E0) = .next (nextOf (stateAt 0 0x00E0)) ∧ FetchesWord (stateAt 0 0x00E0) 0x00E0#16 ∧
    step (stateAt 0 0x6001) = .next (nextOf (stateAt 0 0x6001)) ∧ ¬ FetchesWord (stateAt 0 0x6001) 0x00E0#16 :=
  ⟨rfl, fetch_ok_iff.mp rfl, rfl, fun h => absurd (fetchesWord_unique h (fetch_ok_iff.mp rfl : FetchesWord (stateAt 0 0x6001) 0x6001#16)) (by decide)⟩
theorem witness_StackUse : step (stateAt 0 0x2100) = .next (nextOf (stateAt 0 0x2100)) ∧ (nextOf (stateAt 0 0x2100)).sp ≠ (stateAt 0 0x2100).sp ∧
    (nextOf (stateAt 0 0x2100)).slot 0 ≠ (stateAt 0 0x2100).slot 0 := ⟨rfl, by decide, by decide⟩
theorem witness_MemoryConstant : RunsTo (fun _ => True) 1 (stateAt 0 0x6001) (nextOf (stateAt 0 0x6001)) := ⟨trivial, _, rfl, rfl⟩
theorem witness_TwoFetchedBytes : Memory.read [(0, 0x60#8), (1, 0x01#8), (9, 9#8)] (stateAt 0 0x6001).pc.toNat = (stateAt 0 0x6001).byteAt (stateAt 0 0x6001).pc.toNat ∧
    Memory.read [(0, 0x60#8), (1, 0x01#8), (9, 9#8)] ((stateAt 0 0x6001).pc.toNat + 1) = (stateAt 0 0x6001).byteAt ((stateAt 0 0x6001).pc.toNat + 1) ∧
    step (stateAt 0 0x6001) = .next (nextOf (stateAt 0 0x6001)) := ⟨by decide, by decide, rfl⟩
/-- A frame in use below a stale slot that differs. -/
theorem witness_StaleSlots : (∀ i : Fin 16, i.val < (withFrame (stateAt 0 0x00EE) 1 0 4).sp.val →
      ((withFrame (stateAt 0 0x00EE) 1 0 4).S.set 1 7#16)[i] = (withFrame (stateAt 0 0x00EE) 1 0 4).slot i) ∧
    step (withFrame (stateAt 0 0x00EE) 1 0 4) = .next (nextOf (withFrame (stateAt 0 0x00EE) 1 0 4)) := ⟨by decide, rfl⟩
theorem witness_RegisterAccess : ∀ r ∈ regsRead (.addReg 1 2), (State.reset.V.set 3 9#8)[r] = State.reset.readV r := by decide
theorem witness_StraightLine : AboutToRun (stateAt 0xFFE 0x8014) (.addReg 0 1) ∧ redirectsPc (.addReg 0 1) = false :=
  ⟨aboutToRun_at (op := 0x8014#16) rfl rfl (by decide), rfl⟩
theorem witness_PcAfter : AboutToRun (withFrame (stateAt 0 0x00EE) 16 15 4) .ret ∧
    step (withFrame (stateAt 0 0x00EE) 16 15 4) = .next (nextOf (withFrame (stateAt 0 0x00EE) 16 15 4)) ∧
    (nextOf (withFrame (stateAt 0 0x00EE) 16 15 4)).status = .running := ⟨aboutToRun_at (op := 0x00EE#16) rfl rfl (by decide), rfl, by decide⟩
theorem witness_JumpToItself : AboutToRun (stateAt 0x200 0x1200) (.jump 0x200#12) ∧ (0x200#12).toNat = (stateAt 0x200 0x1200).pc.toNat :=
  ⟨aboutToRun_at (op := 0x1200#16) rfl rfl (by decide), by decide⟩
theorem witness_RunReturns : runFor 1 (stateAt 0 0x0000) = .returned (nextOf (stateAt 0 0x0000)) ∧
    runFor 1 (stateAt 0 0x6001) = .stillRunning (nextOf (stateAt 0 0x6001)) ∧ runFor 1 State.reset = .notStarted State.reset := ⟨rfl, rfl, rfl⟩
theorem witness_HostLoad : Memory.wf State.reset.M = true ∧ (hostLoad 4095 1#8 State.reset = .next { State.reset with M := [(4095, 1#8)] }) ∧
    hostLoad 4096 1#8 State.reset = .fault (.hostLoadOutOfBounds 4096) ∧ hostLoad 0 1#8 runningReset = .fault .hostNotBeforeRun := ⟨rfl, rfl, rfl, rfl⟩
/-- Both sides of the host's time: before `run()`, and in each status after its start. -/
theorem witness_HostTime : State.reset.status = .notYetRunning ∧ runningReset.status ≠ .notYetRunning ∧
    runningReset.enterHalted.status ≠ .notYetRunning ∧ (runningReset.raiseFetchFault 0x1000).status ≠ .notYetRunning := by decide
theorem witness_RunStarts : step State.reset = .fault .notStarted ∧ hostRun State.reset = .next runningReset ∧
    hostRun runningReset = .fault .hostNotBeforeRun ∧ step runningReset = .next (nextOf runningReset) := ⟨rfl, rfl, rfl, rfl⟩
/-- A boot of one instruction at 0x200, and the step that runs it. -/
theorem test_host_boot : (match hostBoot 0x200#16 Config.initV 0x200 [0x61#8, 0xFF#8] with | .next s => (nextOf s).readV 1 | _ => 0#8) = 0xFF#8 := by decide
theorem witness_MemRead : memRead [(4095, 7#8)] 4095 = .ok 7#8 ∧ memRead [(4095, 7#8)] 4096 = .error 4096 := ⟨rfl, rfl⟩
theorem witness_ReturnPops : (withFrame State.reset 1 0 4).sp.val = (0 : Fin 16).val + 1 ∧ (withFrame State.reset 16 15 4).sp.val = (15 : Fin 16).val + 1 := by decide
theorem witness_ReturnEmpty : State.reset.sp = 0 := by decide
theorem witness_CallPushes : State.reset.sp.val < 16 ∧ (withFrame State.reset 15 0 4).sp.val < 16 := by decide
theorem witness_CallFull : (withFrame State.reset 16 0 4).sp = 16 := by decide
/-- Both sides of each skip condition, and of the jump, load and ALU statements' encodings. -/
theorem witness_Skips : State.reset.readV 3 = 0#8 ∧ State.reset.readV 3 ≠ 1#8 ∧ State.reset.readV 3 = State.reset.readV 4 ∧
    (State.reset.writeV 3 1).readV 3 ≠ (State.reset.writeV 3 1).readV 4 ∧ (0x512F#16).extractLsb' 12 4 = 0x5#4 ∧ (0x512F#16).extractLsb' 0 4 ≠ 0x0#4 := by decide
theorem witness_Encodings : (0x1FFF#16 &&& 0xF000#16 = 0x1000#16) ∧ (0x3FFF#16 &&& 0xF000#16 = 0x3000#16) ∧ (0x4FFF#16 &&& 0xF000#16 = 0x4000#16) ∧
    (0x5FF0#16 &&& 0xF00F#16 = 0x5000#16) ∧ (0x6FFF#16 &&& 0xF000#16 = 0x6000#16) ∧ (0x7FFF#16 &&& 0xF000#16 = 0x7000#16) ∧ (0x8FF0#16 &&& 0xF00F#16 = 0x8000#16) ∧
    (0x8FF1#16 &&& 0xF00F#16 = 0x8001#16) ∧ (0x8FF2#16 &&& 0xF00F#16 = 0x8002#16) ∧ (0x8FF3#16 &&& 0xF00F#16 = 0x8003#16) ∧ (0x8FF4#16 &&& 0xF00F#16 = 0x8004#16) := by decide
/-- K11: a skip taken over an Unknown word, and a step after it. -/
theorem witness_SkippedWord : step (stateAt 0x200 0x3000) = .next (nextOf (stateAt 0x200 0x3000)) ∧
    (nextOf (stateAt 0x200 0x3000)).pc.toNat = (stateAt 0x200 0x3000).pc.toNat + 4 ∧
    step (nextOf (stateAt 0x200 0x3000)) = .next (nextOf (nextOf (stateAt 0x200 0x3000))) ∧
    ∀ a, a ≠ (stateAt 0x200 0x3000).pc.toNat + 2 → a ≠ (stateAt 0x200 0x3000).pc.toNat + 3 →
      Memory.read [(0x200, 0x30#8), (0x202, 0xFF#8), (0x203, 0xFF#8)] a = (stateAt 0x200 0x3000).byteAt a := by
  refine ⟨rfl, by decide, rfl, fun a h2 h3 => ?_⟩
  change a ≠ 0x202 at h2
  change a ≠ 0x203 at h3
  have hM : (stateAt 0x200 0x3000).M = [(0x200, 0x30#8)] := by decide
  rw [State.byteAt, hM]
  simp [Memory.read, h2, h3]
/-- A state with a frame in use meets the invariant, and steps. -/
theorem witness_Invariant : (withFrame (stateAt 0 0x00EE) 1 0 0x1000).Inv ∧ PcInRange (withFrame (stateAt 0 0x00EE) 1 0 0x1000) ∧
    step (withFrame (stateAt 0 0x00EE) 1 0 0x1000) = .next (nextOf (withFrame (stateAt 0 0x00EE) 1 0 0x1000)) :=
  ⟨⟨by decide, by unfold LiveSlotsOk; decide, fun r h => by cases h⟩, by unfold PcInRange; decide, rfl⟩
theorem witness_Reachable : RunsTo (fun _ => True) 1 (State.init 0xFFF#16 Config.initV fun _ => 0#8) (nextOf (State.init 0xFFF#16 Config.initV fun _ => 0#8)) ∧
    (0xFFF#16).toNat ≤ 0x1002 := ⟨⟨trivial, _, rfl, rfl⟩, by decide⟩
/-- A call at 0 of 0x100, which calls 0x200 before it returns. -/
def callState : State :=
  (((((stateAt 0 0x2100).setPc 0x100).placeWordAtPc 0x2200).setPc 0x102).placeWordAtPc 0x00EE |>.setPc 0x200).placeWordAtPc 0x00EE |>.setPc 0
/-- The state before the outer return: after the outer call, the nested call and its return. -/
def outerReturnState : State := nextOf (nextOf (nextOf callState))
theorem witness_MatchedReturn : AboutToRun callState (.call 0x100#12) ∧ callState.sp.val < 16 ∧ step callState = .next (nextOf callState) ∧
    RunsTo (fun w => callState.sp.val < w.sp.val) 2 (nextOf callState) outerReturnState ∧ outerReturnState.sp.val = callState.sp.val + 1 ∧
    AboutToRun outerReturnState .ret ∧ step outerReturnState = .next (nextOf outerReturnState) :=
  ⟨aboutToRun_at (op := 0x2100#16) rfl rfl (by decide), by decide, rfl, ⟨by decide, _, rfl, by decide, _, rfl, rfl⟩, by decide,
    aboutToRun_at (op := 0x00EE#16) rfl rfl (by decide), rfl⟩
/-- The clauses of the exact pc update: a fetch fault at 0xFFF, and below it an advance, a skip, a jump, a call and a return. -/
theorem witness_PcUpdates : (nextOf (runningReset.setPc 0xFFF#16)).pc = 0xFFF#16 ∧ (nextOf (stateAt 0xFFE 0x7001)).pc.toNat = 0xFFE + 2 ∧
    (nextOf (stateAt 0xFFE 0x3000)).pc.toNat = 0xFFE + 4 ∧ (nextOf (stateAt 0xFFE 0x1000)).pc.toNat = 0 ∧
    (nextOf (stateAt 0xFFE 0x2FFF)).pc.toNat = 0xFFF ∧ (nextOf (withFrame (stateAt 0xFFE 0x00EE) 1 0 0x1000)).pc.toNat = 0x1000 := by decide

/-- P4: a call to itself, at 0 frames and at 15, where one more fits and the next does not. -/
theorem witness_NestedCalls : RunsTo (fun w => ∃ nnn, AboutToRun w (.call nnn)) 1 (withFrame (stateAt 0 0x2000) 15 0 2) (nextOf (withFrame (stateAt 0 0x2000) 15 0 2)) ∧
    (withFrame (stateAt 0 0x2000) 15 0 2).sp.val + 1 = 16 ∧ AboutToRun (nextOf (withFrame (stateAt 0 0x2000) 15 0 2)) (.call 0#12) :=
  ⟨⟨⟨0#12, aboutToRun_at (op := 0x2000#16) rfl rfl (by decide)⟩, _, rfl, rfl⟩, by decide, aboutToRun_at (op := 0x2000#16) rfl rfl (by decide)⟩

end Sys2Proof.Tests
end

section
/-! PROOF. The decoder is R73's table: rows, search and uniqueness. -/

namespace Sys2Proof

/-- The model's row of R73: match, mask, and the instruction of a word. -/
def formRow (f : Form) : Word × Word × (Word → Instr) := (formMatch f, formMask f, buildForm f)

/-- The rows written out from the spec are the model's rows, in the same order. -/
theorem specRows_eq_map_formRow : specRows = allForms.map formRow := rfl

theorem formMatches_iff (f : Form) (w : Word) : formMatches f w = true ↔ w &&& formMask f = formMatch f :=
  beq_iff_eq

/-- A word that met two rows would agree with both on the bits both masks keep, where the rows differ. -/
theorem formMatches_unique {w : Word} {f g : Form} (hf : formMatches f w = true) (hg : formMatches g w = true) : f = g := by
  rw [formMatches_iff] at hf hg
  by_contra hne
  apply rows_differ f g hne
  calc formMatch f &&& (formMask f &&& formMask g)
      = w &&& (formMask f &&& formMask g) := by rw [← hf, BitVec.and_assoc, ← BitVec.and_assoc (formMask f), BitVec.and_self]
    _ = formMatch g &&& (formMask f &&& formMask g) := by
        rw [← hg, BitVec.and_comm (formMask f), BitVec.and_assoc, ← BitVec.and_assoc (formMask g), BitVec.and_self]

/-- The search finds a row exactly when the word belongs to it, so the order of the rows does not matter (30_encoding R73). -/
theorem formOf_eq_some_iff {w : Word} {f : Form} : formOf w = some f ↔ formMatches f w = true := by
  refine ⟨formMatches_of_formOf, fun hf => ?_⟩
  have hfound : (formOf w).isSome := List.find?_isSome.mpr ⟨f, mem_allForms f, hf⟩
  obtain ⟨g, hg⟩ := Option.isSome_iff_exists.mp hfound
  rw [hg, formMatches_unique (formMatches_of_formOf hg) hf]

theorem formOf_eq_none_iff {w : Word} : formOf w = none ↔ ∀ f, formMatches f w ≠ true := by
  rw [formOf, List.find?_eq_none]
  exact ⟨fun h f => h f (mem_allForms f), fun h f _ => h f⟩

theorem decode_of_formMatches {w : Word} {f : Form} (h : formMatches f w = true) : decode w = .known (buildForm f w) := by
  rw [decode, formOf_eq_some_iff.mpr h]

theorem decode_of_no_form {w : Word} (h : ∀ f, formMatches f w ≠ true) : decode w = .unknown w := by
  rw [decode, formOf_eq_none_iff.mpr h]

theorem nodup_allForms : allForms.Nodup := by decide

theorem length_filter_formMatches_le_one (w : Word) : (allForms.filter fun f => formMatches f w).length ≤ 1 := by
  rw [← List.toFinset_card_of_nodup (nodup_allForms.filter _), Finset.card_le_one]
  intro f hf g hg
  rw [List.mem_toFinset, List.mem_filter] at hf hg
  exact formMatches_unique hf.2 hg.2

/-- Settles O4: the spec's rows are the model's, and the search finds the one row a word belongs to. -/
theorem decoderFollowsTheSpecTable : Obligations.DecoderFollowsTheSpecTable := by
  unfold Obligations.DecoderFollowsTheSpecTable
  rw [specRows_eq_map_formRow]
  refine ⟨?_, fun w h => ?_, fun w => ?_⟩
  · intro row hrow w hw
    obtain ⟨f, -, rfl⟩ := List.mem_map.mp hrow
    exact decode_of_formMatches ((formMatches_iff f w).mpr hw)
  · exact decode_of_no_form fun f hf =>
      h (formRow f) (List.mem_map_of_mem (mem_allForms f)) ((formMatches_iff f w).mp hf)
  · rw [List.filter_map, List.length_map]
    exact length_filter_formMatches_le_one w

end Sys2Proof
end

section
/-! PROOF. A machine that answers a stop has come to the end of its run. -/

namespace Sys2Proof.Machine

theorem step_halted {s : State} (h : s.status = .halted) : step s = .fault .stoppedHalted := by
  simp [step, h]

theorem step_faulted {s : State} {r : FaultRecord} (h : s.status = .faulted r) : step s = .fault (.stoppedFaulted r) := by
  simp [step, h]

theorem step_ne_next_of_fault {s : State} {f : Fault} (h : step s = .fault f) (t : State) : step s ≠ .next t := by
  simp [h]

/-- A run from a state whose step is a stop shows that state, whatever the bound (40_engine R106). -/
theorem runFor_of_step_fault {s : State} {f : Fault} (h : step s = .fault f) : ∀ n, runFor n s = runSeenAt s
  | 0 => rfl
  | n + 1 => by rw [runFor, h]

/-- Settles O13: each terminal status answers its own stop, and a run from a stop shows the state it starts at, which in a terminal status has returned. -/
theorem noStepFromATerminalStatus : Obligations.NoStepFromATerminalStatus := by
  unfold Obligations.NoStepFromATerminalStatus
  refine fun s => ⟨step_halted, fun _ => step_faulted, ?_⟩
  rintro (hhalted | ⟨r, hfaulted⟩)
  · have hstop := step_halted hhalted
    exact ⟨step_ne_next_of_fault hstop, fun n => (runFor_of_step_fault hstop n).trans (runSeenAt_halted hhalted)⟩
  · have hstop := step_faulted hfaulted
    exact ⟨step_ne_next_of_fault hstop, fun n => (runFor_of_step_fault hstop n).trans (runSeenAt_faulted hfaulted)⟩

end Sys2Proof.Machine
end

section
/-! PROOF. A jump moves the program counter and nothing else. -/

namespace Sys2Proof.Machine

/-- A jump completes on every state, as the jump of the program counter (42_control_flow R131). -/
theorem exec_jump (nnn : Addr12) (s : State) : exec (.jump nnn) s = .next (s.jumpTo nnn) := rfl

/-- A 12-bit target is extended by zeros, so no bit of it is lost (30_encoding R71). -/
theorem jumpTo_pc_toNat (s : State) (nnn : Addr12) : (s.jumpTo nnn).pc.toNat = nnn.toNat := by
  rw [jumpTo_pc]
  exact BitVec.toNat_setWidth_of_le (by decide)

theorem decode_jump_row {w : Word} (h : w &&& 0xF000#16 = 0x1000#16) : decode w = .known (.jump (fieldNNN w)) :=
  decode_of_formMatches ((formMatches_iff .jump w).mpr h)

/-- Settles O36: the word's row is the jump's, and the jump of the program counter keeps every other field. -/
theorem jumpSetsPcToItsTarget : Obligations.JumpSetsPcToItsTarget := by
  unfold Obligations.JumpSetsPcToItsTarget
  refine ⟨fun _ => decode_jump_row, fun nnn s => ⟨s.jumpTo nnn, exec_jump nnn s, jumpTo_pc_toNat s nnn, ?_, ?_, ?_, ?_⟩⟩
  · exact fun r _ => readV_congr (jumpTo_V s nnn) r
  · exact ⟨jumpTo_sp s nnn, slot_congr (jumpTo_S s nnn)⟩
  · exact byteAt_congr (jumpTo_M s nnn)
  · exact ⟨jumpTo_status s nnn, jumpTo_signals s nnn⟩

end Sys2Proof.Machine
end

section
/-! PROOF. The skips: each decodes in its row, and moves the program counter alone. -/

namespace Sys2Proof

/-- A word that meets a row's match under the row's mask decodes to that row's instruction (30_encoding R73). -/
theorem decode_of_row (f : Form) {w : Word} (h : w &&& formMask f = formMatch f) : decode w = .known (buildForm f w) :=
  decode_of_formMatches ((formMatches_iff f w).mpr h)

theorem fieldC_and (w m : Word) : fieldC (w &&& m) = fieldC w &&& fieldC m := BitVec.extractLsb'_and

/-- Every mask of the table keeps the class (30_encoding R73). -/
theorem fieldC_formMask (f : Form) : fieldC (formMask f) = 0xF#4 := by cases f <;> rfl

/-- A word has the class of every row it belongs to. -/
theorem fieldC_of_formMatches {w : Word} {f : Form} (h : formMatches f w = true) : fieldC w = fieldC (formMatch f) := by
  rw [← (formMatches_iff f w).mp h, fieldC_and, fieldC_formMask, and_fifteen]

/-- Class 5 has one row. -/
theorem eq_skipEqReg_of_fieldC {f : Form} (h : fieldC (formMatch f) = 0x5#4) : f = .skipEqReg := by
  revert h
  cases f <;> decide

/-- A word of class 5 could only belong to the row of `5xy0`, whose mask keeps `d` and asks for 0 (30_encoding R75). -/
theorem decode_class_five_unknown {w : Word} (hclass : fieldC w = 0x5#4) (hd : fieldD w ≠ 0x0#4) : decode w = .unknown w := by
  apply decode_of_no_form
  intro f hf
  obtain rfl : f = .skipEqReg := eq_skipEqReg_of_fieldC ((fieldC_of_formMatches hf).symm.trans hclass)
  exact hd ((formMatches_selector (c := 0x5#4) (d := 0x0#4) rfl rfl w).mp hf).2

end Sys2Proof

namespace Sys2Proof.Machine

section SkipRules

variable (s : State) (x y : Reg) (kk : Byte)

theorem exec_skipEqImm : exec (.skipEqImm x kk) s = .next (s.skipIf (s.readV x == kk)) := rfl

theorem exec_skipNeImm : exec (.skipNeImm x kk) s = .next (s.skipIf (s.readV x != kk)) := rfl

theorem exec_skipEqReg : exec (.skipEqReg x y) s = .next (s.skipIf (s.readV x == s.readV y)) := rfl

theorem skipIf_pc_of_true {c : Bool} (h : c = true) : (s.skipIf c).pc = s.pc + 2#16 := by
  rw [skipIf_pc, if_pos h]

theorem skipIf_pc_of_false {c : Bool} (h : c = false) : (s.skipIf c).pc = s.pc := by
  rw [skipIf_pc, if_neg (Bool.eq_false_iff.mp h)]

/-- A skip is seen in the program counter: a 16-bit word never equals itself plus 2 (log 1). -/
theorem skipIf_pc_ne_of_false {c : Bool} (h : c = false) : (s.skipIf c).pc ≠ s.pc + 2#16 := by
  rw [skipIf_pc_of_false s h]
  bv_omega

/-- A skip writes `pc` alone (43_skip R140-R142). -/
theorem skipIf_frame (c : Bool) :
    SameRegsBut [] s (s.skipIf c) ∧ SameStack s (s.skipIf c) ∧ SameMemory s (s.skipIf c) ∧ SameStatus s (s.skipIf c) := by
  refine ⟨?_, ?_, ?_, ?_⟩
  · exact fun r _ => readV_congr (skipIf_V s c) r
  · exact ⟨skipIf_sp s c, slot_congr (skipIf_S s c)⟩
  · exact byteAt_congr (skipIf_M s c)
  · exact ⟨skipIf_status s c, skipIf_signals s c⟩

end SkipRules

/-- Settles O39: the word's row is the skip's, and the test `V[x] = kk` decides the second advance. -/
theorem skipIfEqualImmediate : Obligations.SkipIfEqualImmediate := by
  unfold Obligations.SkipIfEqualImmediate
  refine ⟨fun _ => decode_of_row .skipEqImm, fun x kk s => ⟨_, exec_skipEqImm s x kk, ?skips, ?stays, skipIf_frame s _⟩⟩
  case skips => exact fun heq => skipIf_pc_of_true s (beq_iff_eq.mpr heq)
  case stays => exact fun hne => skipIf_pc_of_false s (beq_eq_false_iff_ne.mpr hne)

/-- Settles O40: the test is the negation of `3xkk`'s, so of the two exactly one skips on each state. -/
theorem skipIfNotEqualImmediate : Obligations.SkipIfNotEqualImmediate := by
  unfold Obligations.SkipIfNotEqualImmediate
  refine ⟨fun _ => decode_of_row .skipNeImm, fun x kk s => ⟨⟨_, exec_skipNeImm s x kk, ?skips, ?stays, skipIf_frame s _⟩,
    _, _, exec_skipEqImm s x kk, exec_skipNeImm s x kk, ?exactlyOne⟩⟩
  case skips => exact fun hne => skipIf_pc_of_true s (bne_iff_ne.mpr hne)
  case stays => exact fun heq => skipIf_pc_of_false s (bne_eq_false_iff_eq.mpr heq)
  case exactlyOne =>
    by_cases heq : s.readV x = kk
    · exact .inl ⟨skipIf_pc_of_true s (beq_iff_eq.mpr heq), skipIf_pc_ne_of_false s (bne_eq_false_iff_eq.mpr heq)⟩
    · exact .inr ⟨skipIf_pc_ne_of_false s (beq_eq_false_iff_ne.mpr heq), skipIf_pc_of_true s (bne_iff_ne.mpr heq)⟩

/-- Settles O41: the word's row is the skip's, a word of class 5 with another `d` has no row, and the test compares the two registers. -/
theorem skipIfEqualRegisters : Obligations.SkipIfEqualRegisters := by
  unfold Obligations.SkipIfEqualRegisters
  refine ⟨fun _ => decode_of_row .skipEqReg, fun _ => decode_class_five_unknown,
    fun x y s => ⟨_, exec_skipEqReg s x y, ?skips, ?stays, skipIf_frame s _⟩⟩
  case skips => exact fun heq => skipIf_pc_of_true s (beq_iff_eq.mpr heq)
  case stays => exact fun hne => skipIf_pc_of_false s (beq_eq_false_iff_ne.mpr hne)

end Sys2Proof.Machine
end

section
/-! PROOF. The register-immediate operations: each decodes in its row, and writes one register. -/

namespace Sys2Proof.Machine

section RegisterImmediate

variable (s : State) (x : Reg) (kk b : Byte)

/-- A load-immediate completes on every state, as the write of `kk` (44_immediate R150). -/
theorem exec_loadImm : exec (.loadImm x kk) s = .next (s.writeV x kk) := rfl

/-- An add-immediate completes on every state, as the one write of the wrapped sum (44_immediate R151). -/
theorem exec_addImm : exec (.addImm x kk) s = .next (s.writeV x (wrappedSum (s.readV x) kk)) := rfl

/-- A register write changes no other register (10_state R20, R21). -/
theorem writeV_sameRegsBut : SameRegsBut [x] s (s.writeV x b) :=
  fun _ hr => readV_writeV_other s b (List.ne_of_not_mem_cons hr)

/-- A register write changes nothing beside the register file. -/
theorem writeV_frame : (s.writeV x b).pc = s.pc ∧ SameStack s (s.writeV x b) ∧ SameMemory s (s.writeV x b) ∧ SameStatus s (s.writeV x b) := by
  refine ⟨writeV_pc s x b, ?_, ?_, ?_⟩
  · exact ⟨writeV_sp s x b, slot_congr (writeV_S s x b)⟩
  · exact byteAt_congr (writeV_M s x b)
  · exact ⟨writeV_status s x b, writeV_signals s x b⟩

end RegisterImmediate

/-- Settles O43: the word's row is the load's, and V[x] reads back the written `kk`, whichever register x is. -/
theorem loadImmediateWritesKk : Obligations.LoadImmediateWritesKk := by
  unfold Obligations.LoadImmediateWritesKk
  refine ⟨fun _ => decode_of_row .loadImm, fun x kk s => ⟨_, exec_loadImm s x kk, ?value, ?others, writeV_frame s x kk⟩⟩
  case value => exact readV_writeV_same s x kk
  case others => exact writeV_sameRegsBut s x kk

/-- Settles O44: the word's row is the add's, and the sum modulo 256 is the only write, so no carry reaches VF. -/
theorem addImmediateWrapsWithoutCarry : Obligations.AddImmediateWrapsWithoutCarry := by
  unfold Obligations.AddImmediateWrapsWithoutCarry
  refine ⟨fun _ => decode_of_row .addImm, fun x kk s => ⟨_, exec_addImm s x kk, ?value, ?others, writeV_frame s x _⟩⟩
  case value => rw [readV_writeV_same, wrappedSum_toNat]
  case others => exact writeV_sameRegsBut s x _

end Sys2Proof.Machine
end

section
/-! PROOF. The copy and the three bitwise operations: each decodes in its row, and writes one register. -/

namespace Sys2Proof.Machine

section RegisterRegister

variable (s : State) (x y : Reg) (f : Byte → Byte → Byte)

/-- A copy completes on every state, as one write of the ALU that keeps the second operand (45_alu R161). -/
theorem exec_copy : exec (.copy x y) s = .next (s.aluWrite (fun _ b => b) x y) := rfl

/-- A bitwise OR completes on every state, as one write of the ALU (45_alu R162). -/
theorem exec_bitOr : exec (.bitOr x y) s = .next (s.aluWrite (· ||| ·) x y) := rfl

/-- A bitwise AND completes on every state, as one write of the ALU (45_alu R163). -/
theorem exec_bitAnd : exec (.bitAnd x y) s = .next (s.aluWrite (· &&& ·) x y) := rfl

/-- A bitwise XOR completes on every state, as one write of the ALU (45_alu R164). -/
theorem exec_bitXor : exec (.bitXor x y) s = .next (s.aluWrite (· ^^^ ·) x y) := rfl

/-- The result is computed from the operands as they stood before the write, x = y included (45_alu R160). -/
@[simp] theorem readV_aluWrite_same : (s.aluWrite f x y).readV x = f (s.readV x) (s.readV y) :=
  readV_writeV_same s x _

/-- An ALU write changes one register: VF is written only when it is the destination (45_alu R162). -/
theorem aluWrite_frame : SameRegsBut [x] s (s.aluWrite f x y) ∧ (s.aluWrite f x y).pc = s.pc ∧ SameStack s (s.aluWrite f x y) ∧
    SameMemory s (s.aluWrite f x y) ∧ SameStatus s (s.aluWrite f x y) :=
  ⟨writeV_sameRegsBut s x _, writeV_frame s x _⟩

end RegisterRegister

/-- Settles O45: the word's row is the copy's, and V[x] reads back the old V[y], whichever registers x and y are. -/
theorem copyWritesVy : Obligations.CopyWritesVy := by
  unfold Obligations.CopyWritesVy
  refine ⟨fun _ => decode_of_row .copy, fun x y s => ⟨_, exec_copy s x y, ?value, aluWrite_frame s x y _⟩⟩
  case value => exact readV_aluWrite_same s x y _

/-- Settles O46: the word's row is the OR's, and each bit of the written byte is the OR of the operands' bits. -/
theorem orWritesBitwiseOr : Obligations.OrWritesBitwiseOr := by
  unfold Obligations.OrWritesBitwiseOr
  refine ⟨fun _ => decode_of_row .bitOr, fun x y s => ⟨_, exec_bitOr s x y, ?bits, aluWrite_frame s x y _⟩⟩
  case bits =>
    intro k _
    rw [readV_aluWrite_same, BitVec.getLsbD_or]

/-- Settles O47: the word's row is the AND's, and each bit of the written byte is the AND of the operands' bits. -/
theorem andWritesBitwiseAnd : Obligations.AndWritesBitwiseAnd := by
  unfold Obligations.AndWritesBitwiseAnd
  refine ⟨fun _ => decode_of_row .bitAnd, fun x y s => ⟨_, exec_bitAnd s x y, ?bits, aluWrite_frame s x y _⟩⟩
  case bits =>
    intro k _
    rw [readV_aluWrite_same, BitVec.getLsbD_and]

/-- Settles O48: the word's row is the XOR's, and each bit of the written byte tells whether the operands' bits differ. -/
theorem xorWritesBitwiseXor : Obligations.XorWritesBitwiseXor := by
  unfold Obligations.XorWritesBitwiseXor
  refine ⟨fun _ => decode_of_row .bitXor, fun x y s => ⟨_, exec_bitXor s x y, ?bits, aluWrite_frame s x y _⟩⟩
  case bits =>
    intro k _
    rw [readV_aluWrite_same, BitVec.getLsbD_xor]

end Sys2Proof.Machine
end

section
/-! PROOF. Encoding and decoding: the decoder and the encoder are inverse, the Unknown words are those without a row, and a word is its fields. -/

namespace Sys2Proof

/-! ### Decode after encode -/

theorem encode_in_row (i : Instr) : formMatches (instrForm i) (encode i) = true := by
  cases i
  case halt => exact Laws.EncodesInRow.halt
  case clearDisplay => exact Laws.EncodesInRow.clearDisplay
  case ret => exact Laws.EncodesInRow.ret
  case jump nnn => exact Laws.EncodesInRow.jump nnn
  case call nnn => exact Laws.EncodesInRow.call nnn
  case skipEqImm x kk => exact Laws.EncodesInRow.skipEqImm x kk
  case skipNeImm x kk => exact Laws.EncodesInRow.skipNeImm x kk
  case skipEqReg x y => exact Laws.EncodesInRow.skipEqReg x y
  case loadImm x kk => exact Laws.EncodesInRow.loadImm x kk
  case addImm x kk => exact Laws.EncodesInRow.addImm x kk
  case copy x y => exact Laws.EncodesInRow.copy x y
  case bitOr x y => exact Laws.EncodesInRow.bitOr x y
  case bitAnd x y => exact Laws.EncodesInRow.bitAnd x y
  case bitXor x y => exact Laws.EncodesInRow.bitXor x y
  case addReg x y => exact Laws.EncodesInRow.addReg x y

/-- Each operand is read back from the field it was written to (30_encoding R70-R72). -/
theorem buildForm_encode (i : Instr) : buildForm (instrForm i) (encode i) = i := by
  cases i <;>
    simp [instrForm, buildForm, encode, fieldX_wordXK, fieldKK_wordXK, fieldX_wordXYD, fieldY_wordXYD]

theorem decode_encode (i : Instr) : decode (encode i) = .known i := by
  rw [decode_of_formMatches (encode_in_row i), buildForm_encode]

@[simp] theorem wordOfBytes_hi_lo (w : Word) : wordOfBytes (hiByte w) (loByte w) = w := by
  have h := BitVec.extractLsb'_append_extractLsb'_eq_extractLsb' (x := w) (start₁ := 0) (start₂ := 8) (len₁ := 8) (len₂ := 8) rfl
  exact h.trans BitVec.extractLsb'_eq_self

theorem decodeBytes_encodeBytes (i : Instr) (rest : List Byte) : decodeBytes (encodeBytes i ++ rest) = .ok (i, rest) := by
  simp [encodeBytes, bytesOfWord, decodeBytes, decode_encode]

/-- Settles O2: an instruction's word lies in its row, whose fields give the operands back, and a word is put together again from its two bytes. -/
theorem decodeRecoversEveryEncodedInstruction : Obligations.DecodeRecoversEveryEncodedInstruction := by
  unfold Obligations.DecodeRecoversEveryEncodedInstruction
  exact fun i rest => ⟨decode_encode i, decodeBytes_encodeBytes i rest⟩

/-! ### Encode after decode -/

theorem wordN_of_class {w : Word} {f : Form} {c : BitVec 4} (hmask : formMask f = 0xF000#16) (hmatch : formMatch f = wordN c 0#12)
    (h : formMatches f w = true) : wordN c (fieldNNN w) = w := by
  obtain rfl := (formMatches_class hmask hmatch w).mp h
  exact (word_eq_wordN w).symm

theorem wordXK_of_class {w : Word} {f : Form} {c : BitVec 4} (hmask : formMask f = 0xF000#16) (hmatch : formMatch f = wordN c 0#12)
    (h : formMatches f w = true) : wordXK c (regOf (fieldX w)) (fieldKK w) = w := by
  obtain rfl := (formMatches_class hmask hmatch w).mp h
  exact (word_eq_wordXK w).symm

theorem wordXYD_of_selector {w : Word} {f : Form} {c d : BitVec 4} (hmask : formMask f = 0xF00F#16) (hmatch : formMatch f = wordXYD c 0 0 d)
    (h : formMatches f w = true) : wordXYD c (regOf (fieldX w)) (regOf (fieldY w)) d = w := by
  obtain ⟨rfl, rfl⟩ := (formMatches_selector hmask hmatch w).mp h
  exact (word_eq_wordXYD w).symm

/-- A row whose mask is 0xFFFF holds one word. -/
theorem formMatches_whole {f : Form} (hmask : formMask f = 0xFFFF#16) (w : Word) : formMatches f w = true ↔ w = formMatch f := by
  rw [formMatches, hmask, mask_whole, beq_iff_eq]

/-- In each row the match and the operand fields are all of the word (30_encoding R73). -/
theorem encode_buildForm {w : Word} {f : Form} (h : formMatches f w = true) : encode (buildForm f w) = w := by
  cases f
  case halt | clearDisplay | ret => exact ((formMatches_whole rfl w).mp h).symm
  case jump | call => exact wordN_of_class rfl rfl h
  case skipEqImm | skipNeImm | loadImm | addImm => exact wordXK_of_class rfl rfl h
  case skipEqReg | copy | bitOr | bitAnd | bitXor | addReg => exact wordXYD_of_selector rfl rfl h

theorem encode_of_decode {w : Word} {i : Instr} (h : decode w = .known i) : encode i = w := by
  obtain ⟨f, hf, rfl⟩ := decode_known h
  exact encode_buildForm (formMatches_of_formOf hf)

/-- Each Known word has one instruction and each instruction one word. -/
theorem decode_eq_known_iff {w : Word} {i : Instr} : decode w = .known i ↔ encode i = w :=
  ⟨encode_of_decode, fun h => h ▸ decode_encode i⟩

/-- Settles O3: the row a Known word belongs to and its operand fields put the word together again. -/
theorem knownWordIsTheEncodingOfItsInstruction : Obligations.KnownWordIsTheEncodingOfItsInstruction := by
  unfold Obligations.KnownWordIsTheEncodingOfItsInstruction
  exact fun _ _ => encode_of_decode

/-! ### The Unknown words -/

theorem decode_unknown_iff {w : Word} : decode w = .unknown w ↔ ∀ f, formMatches f w ≠ true := by
  refine ⟨fun h f hf => ?_, decode_of_no_form⟩
  simp [decode_of_formMatches hf] at h

theorem forall_form_iff {p : Form → Prop} : (∀ f, p f) ↔ ∀ f ∈ allForms, p f :=
  ⟨fun h f _ => h f, fun h f => h f (mem_allForms f)⟩

/-- A word has no row: it is no word of the system rows, no class that is all one form, and no selector of class 5 or 8 that has a form. -/
theorem no_form_iff (w : Word) : (∀ f, formMatches f w ≠ true) ↔
    (w ≠ 0x0000#16 ∧ w ≠ 0x00E0#16 ∧ w ≠ 0x00EE#16) ∧
    (∀ c ∈ [0x1#4, 0x2#4, 0x3#4, 0x4#4, 0x6#4, 0x7#4], fieldC w ≠ c) ∧
    ¬ (fieldC w = 0x5#4 ∧ fieldD w = 0x0#4) ∧
    ∀ d ∈ [0x0#4, 0x1#4, 0x2#4, 0x3#4, 0x4#4], ¬ (fieldC w = 0x8#4 ∧ fieldD w = d) := by
  have hwhole (f : Form) (hmask : formMask f = 0xFFFF#16) := formMatches_whole hmask w
  have hclass (f : Form) (c : BitVec 4) (hmask : formMask f = 0xF000#16) (hmatch : formMatch f = wordN c 0#12) :=
    formMatches_class hmask hmatch w
  have hselector (f : Form) (c d : BitVec 4) (hmask : formMask f = 0xF00F#16) (hmatch : formMatch f = wordXYD c 0 0 d) :=
    formMatches_selector hmask hmatch w
  rw [forall_form_iff]
  simp only [allForms, List.cons_append, List.nil_append, List.forall_mem_cons, List.not_mem_nil, false_implies, implies_true, and_true, Ne,
    hwhole .halt rfl, hwhole .clearDisplay rfl, hwhole .ret rfl, hclass .jump 1 rfl rfl, hclass .call 2 rfl rfl,
    hclass .skipEqImm 3 rfl rfl, hclass .skipNeImm 4 rfl rfl, hclass .loadImm 6 rfl rfl, hclass .addImm 7 rfl rfl,
    hselector .skipEqReg 5 0 rfl rfl, hselector .copy 8 0 rfl rfl, hselector .bitOr 8 1 rfl rfl, hselector .bitAnd 8 2 rfl rfl,
    hselector .bitXor 8 3 rfl rfl, hselector .addReg 8 4 rfl rfl]
  simp only [formMatch]
  tauto

/-- The system words lie in class 0. -/
theorem not_system_word {w : Word} (h : fieldC w ≠ 0x0#4) : w ≠ 0x0000#16 ∧ w ≠ 0x00E0#16 ∧ w ≠ 0x00EE#16 := by
  refine ⟨?_, ?_, ?_⟩ <;>
  · rintro rfl
    exact h rfl

/-- The classes and selectors without a row, counted over the 16 classes and 16 selectors. -/
theorem no_row_classes (c d : BitVec 4) :
    ((∀ k ∈ [0x1#4, 0x2#4, 0x3#4, 0x4#4, 0x6#4, 0x7#4], c ≠ k) ∧ ¬ (c = 0x5#4 ∧ d = 0x0#4) ∧
      ∀ k ∈ [0x0#4, 0x1#4, 0x2#4, 0x3#4, 0x4#4], ¬ (c = 0x8#4 ∧ d = k)) ↔
    c = 0x0#4 ∨ (c = 0x5#4 ∧ d ≠ 0x0#4) ∨ (c = 0x8#4 ∧ 5 ≤ d.toNat) ∨ 9 ≤ c.toNat := by
  revert c d
  decide

/-- Settles O5: an Unknown word is one without a row, and the words without a row are the listed ones, class by class. -/
theorem unknownWordsAreExactlyThoseListed : Obligations.UnknownWordsAreExactlyThoseListed := by
  unfold Obligations.UnknownWordsAreExactlyThoseListed
  intro w
  rw [decode_unknown_iff, no_form_iff, no_row_classes]
  change _ ↔ (fieldC w = 0x0#4 ∧ _) ∨ (fieldC w = 0x5#4 ∧ fieldD w ≠ 0x0#4) ∨
    (fieldC w = 0x8#4 ∧ 5 ≤ (fieldD w).toNat) ∨ 9 ≤ (fieldC w).toNat
  by_cases hclass : fieldC w = 0x0#4
  · simp [hclass]
  · simp [hclass, not_system_word hclass]

/-! ### Fields as numbers -/

/-- Settles O6: the fields are consecutive bits of the word, from bit 12, 8, 4 and 0 on. -/
theorem fieldsMakeUpTheWord : Obligations.FieldsMakeUpTheWord := by
  unfold Obligations.FieldsMakeUpTheWord
  intro w
  simp only [fieldC, fieldX, fieldY, fieldD, fieldKK, fieldNNN, BitVec.extractLsb'_toNat, Nat.shiftRight_eq_div_pow]
  have := w.isLt
  omega

/-- Settles O1: each word is the encoding of its instruction. -/
theorem specWordsDecodeToTheirInstructions : Obligations.SpecWordsDecodeToTheirInstructions := by
  unfold Obligations.SpecWordsDecodeToTheirInstructions
  simp only [decode_eq_known_iff]
  decide

end Sys2Proof
end

section
/-! PROOF. The source check: what each shape accepts, the row of a mnemonic that its operands pick, and what an accepted instruction lays down. -/

namespace Sys2Proof

/-! ### What a shape accepts -/

theorem srcReg_ok_iff {n : Nat} {x : Reg} : srcReg n = .ok x ↔ n = x.val := by
  unfold srcReg
  split
  · simp [Fin.ext_iff]
  · simp
    omega

theorem srcByte_ok_iff {n : Nat} {kk : Byte} : srcByte n = .ok kk ↔ n = kk.toNat := by
  unfold srcByte
  have := kk.isLt
  split
  · simp only [Except.ok.injEq, BitVec.toNat_eq, BitVec.toNat_ofNat]
    omega
  · simp
    omega

theorem srcAddr_ok_iff {n : Nat} {nnn : Addr12} : srcAddr n = .ok nnn ↔ n = nnn.toNat := by
  unfold srcAddr
  have := nnn.isLt
  split
  · simp only [Except.ok.injEq, BitVec.toNat_eq, BitVec.toNat_ofNat]
    omega
  · simp
    omega

theorem map_eq_ok_iff {ε α β : Type} {e : Except ε α} {f : α → β} {b : β} : e.map f = .ok b ↔ ∃ a, e = .ok a ∧ f a = b := by
  cases e <;> simp [Except.map]

theorem bind_eq_ok_iff {ε α β : Type} {e : Except ε α} {f : α → Except ε β} {b : β} : e.bind f = .ok b ↔ ∃ a, e = .ok a ∧ f a = .ok b := by
  cases e <;> simp [Except.bind]

/-- The instruction a shape makes of operands: its own kinds of operands, each the value of a field (30_encoding R79). -/
def SrcShape.Makes : SrcShape → List SrcOperand → Instr → Prop
  | .noOperand j, ops, i => ops = [] ∧ j = i
  | .address make, ops, i => ∃ nnn : Addr12, ops = [.num nnn.toNat] ∧ make nnn = i
  | .regImm make, ops, i => ∃ (x : Reg) (kk : Byte), ops = [.reg x.val, .num kk.toNat] ∧ make x kk = i
  | .regReg make, ops, i => ∃ x y : Reg, ops = [.reg x.val, .reg y.val] ∧ make x y = i

theorem build_ok_iff {sh : SrcShape} {ops : List SrcOperand} {i : Instr} : sh.build ops = .ok i ↔ sh.Makes ops i := by
  unfold SrcShape.build
  split
  case h_1 j => simp [SrcShape.Makes]
  case h_2 make n => simp [SrcShape.Makes, map_eq_ok_iff, srcAddr_ok_iff]
  case h_3 make n k => simp [SrcShape.Makes, map_eq_ok_iff, bind_eq_ok_iff, srcReg_ok_iff, srcByte_ok_iff, and_assoc]
  case h_4 make n m => simp [SrcShape.Makes, map_eq_ok_iff, bind_eq_ok_iff, srcReg_ok_iff, and_assoc]
  case h_5 hnone haddress himm hreg =>
    refine iff_of_false (by simp) fun hmakes => ?_
    cases sh with
    | noOperand j =>
      obtain ⟨rfl, -⟩ := hmakes
      exact hnone j rfl rfl
    | address make =>
      obtain ⟨nnn, rfl, -⟩ := hmakes
      exact haddress make _ rfl rfl
    | regImm make =>
      obtain ⟨x, kk, rfl, -⟩ := hmakes
      exact himm make _ _ rfl rfl
    | regReg make =>
      obtain ⟨x, y, rfl, -⟩ := hmakes
      exact hreg make _ _ rfl rfl

/-! ### The row that the operands pick -/

/-- The kinds of operands of a shape, counted in the order of `SrcShape`. -/
def SrcShape.kind : SrcShape → Nat
  | .noOperand _ => 0
  | .address _ => 1
  | .regImm _ => 2
  | .regReg _ => 3

/-- The kind of shape that takes operands of these kinds, if any. -/
def operandsKind : List SrcOperand → Option Nat
  | [] => some 0
  | [.num _] => some 1
  | [.reg _, .num _] => some 2
  | [.reg _, .reg _] => some 3
  | _ => none

theorem operandsKind_of_makes {sh : SrcShape} {ops : List SrcOperand} {i : Instr} (h : sh.Makes ops i) : operandsKind ops = some sh.kind := by
  cases sh with
  | noOperand j => obtain ⟨rfl, -⟩ := h; rfl
  | address make => obtain ⟨nnn, rfl, -⟩ := h; rfl
  | regImm make => obtain ⟨x, kk, rfl, -⟩ := h; rfl
  | regReg make => obtain ⟨x, y, rfl, -⟩ := h; rfl

/-- Operands of another kind are an error of shape, the one error after which the next row is tried (30_encoding R80). -/
theorem build_of_kind_ne {sh : SrcShape} {ops : List SrcOperand} (h : operandsKind ops ≠ some sh.kind) :
    sh.build ops = .error .operandShape := by
  unfold SrcShape.build
  split
  case h_5 => rfl
  all_goals exact absurd rfl h

/-- Trying the shapes finds no instruction but one that a shape makes. -/
theorem makes_of_tryShapes {shapes : List SrcShape} {ops : List SrcOperand} {i : Instr} (h : tryShapes shapes ops = .ok i) :
    ∃ sh ∈ shapes, sh.Makes ops i := by
  induction shapes with
  | nil => cases h
  | cons sh rest ih =>
    rw [tryShapes] at h
    split at h
    · obtain ⟨sh', hmem, hmakes⟩ := ih h
      exact ⟨sh', List.mem_cons_of_mem _ hmem, hmakes⟩
    · exact ⟨sh, List.mem_cons_self, build_ok_iff.mp h⟩

/-- It finds the instruction a shape makes, where no other shape of the list has that shape's kind. -/
theorem tryShapes_of_makes {shapes : List SrcShape} {sh : SrcShape} {ops : List SrcOperand} {i : Instr} (hmem : sh ∈ shapes)
    (hmakes : sh.Makes ops i) (hkind : ∀ other ∈ shapes, other.kind = sh.kind → other = sh) : tryShapes shapes ops = .ok i := by
  induction shapes with
  | nil => cases hmem
  | cons first rest ih =>
    rw [tryShapes]
    by_cases hfirst : first.kind = sh.kind
    · rw [hkind first List.mem_cons_self hfirst, build_ok_iff.mpr hmakes]
    · rw [build_of_kind_ne (by simpa [operandsKind_of_makes hmakes] using Ne.symm hfirst)]
      refine ih ((List.mem_cons.mp hmem).resolve_left ?_) fun other hother => hkind other (List.mem_cons_of_mem _ hother)
      rintro rfl
      exact hfirst rfl

theorem mem_shapesOf {m : String} {sh : SrcShape} : sh ∈ shapesOf m ↔ (m, sh) ∈ srcRows := by
  simp [shapesOf]

/-- Two rows of one mnemonic differ in the kinds of their operands (30_encoding R80). -/
theorem srcRows_nodup : (srcRows.map fun row => (row.1, row.2.kind)).Nodup := by decide

theorem shape_unique {m : String} {sh other : SrcShape} (h : (m, sh) ∈ srcRows) (h' : (m, other) ∈ srcRows) (hkind : other.kind = sh.kind) :
    other = sh := by
  have := List.inj_on_of_nodup_map srcRows_nodup h' h (by simp [hkind])
  exact congrArg Prod.snd this

/-- The check accepts exactly what a row of the mnemonic makes of the operands. -/
theorem check_ok_iff {si : SrcInstr} {i : Instr} : si.check = .ok i ↔ ∃ sh, (si.mnemonic, sh) ∈ srcRows ∧ sh.Makes si.operands i := by
  have htry : si.check = .ok i ↔ tryShapes (shapesOf si.mnemonic) si.operands = .ok i := by
    unfold SrcInstr.check
    split
    · simp [*, tryShapes]
    · rfl
  rw [htry]
  constructor
  · intro h
    obtain ⟨sh, hmem, hmakes⟩ := makes_of_tryShapes h
    exact ⟨sh, mem_shapesOf.mp hmem, hmakes⟩
  · rintro ⟨sh, hrow, hmakes⟩
    exact tryShapes_of_makes (mem_shapesOf.mpr hrow) hmakes fun other hother hkind => shape_unique hrow (mem_shapesOf.mp hother) hkind

/-! ### The rows are the spec's names -/

/-- The shape of an instruction's rows. -/
def shapeOfInstr : Instr → SrcShape
  | .halt => .noOperand .halt
  | .clearDisplay => .noOperand .clearDisplay
  | .ret => .noOperand .ret
  | .jump _ => .address .jump
  | .call _ => .address .call
  | .skipEqImm _ _ => .regImm .skipEqImm
  | .skipNeImm _ _ => .regImm .skipNeImm
  | .skipEqReg _ _ => .regReg .skipEqReg
  | .loadImm _ _ => .regImm .loadImm
  | .addImm _ _ => .regImm .addImm
  | .copy _ _ => .regReg .copy
  | .bitOr _ _ => .regReg .bitOr
  | .bitAnd _ _ => .regReg .bitAnd
  | .bitXor _ _ => .regReg .bitXor
  | .addReg _ _ => .regReg .addReg

theorem shapeOfInstr_makes (i : Instr) : (shapeOfInstr i).Makes (specOperands i) i := by
  cases i <;> simp [shapeOfInstr, SrcShape.Makes, specOperands]

theorem mem_srcRows_of_name (i : Instr) : ∀ m ∈ specNames i, (m, shapeOfInstr i) ∈ srcRows := by
  cases i <;> simp [specNames, shapeOfInstr, srcRows]

section MakesRules

variable {P : List SrcOperand → Instr → Prop}

theorem forall_makes_noOperand {j : Instr} : (∀ ops i, (SrcShape.noOperand j).Makes ops i → P ops i) ↔ P [] j := by
  simp [SrcShape.Makes]

theorem forall_makes_address {make : Addr12 → Instr} :
    (∀ ops i, (SrcShape.address make).Makes ops i → P ops i) ↔ ∀ nnn, P [.num nnn.toNat] (make nnn) :=
  ⟨fun h nnn => h _ _ ⟨nnn, rfl, rfl⟩, by rintro h _ _ ⟨nnn, rfl, rfl⟩; exact h nnn⟩

theorem forall_makes_regImm {make : Reg → Byte → Instr} :
    (∀ ops i, (SrcShape.regImm make).Makes ops i → P ops i) ↔ ∀ x kk, P [.reg x.val, .num kk.toNat] (make x kk) :=
  ⟨fun h x kk => h _ _ ⟨x, kk, rfl, rfl⟩, by rintro h _ _ ⟨x, kk, rfl, rfl⟩; exact h x kk⟩

theorem forall_makes_regReg {make : Reg → Reg → Instr} :
    (∀ ops i, (SrcShape.regReg make).Makes ops i → P ops i) ↔ ∀ x y, P [.reg x.val, .reg y.val] (make x y) :=
  ⟨fun h x y => h _ _ ⟨x, y, rfl, rfl⟩, by rintro h _ _ ⟨x, y, rfl, rfl⟩; exact h x y⟩

end MakesRules

/-- Row by row, what a shape makes has the row's name among its names and the operands as its values. -/
theorem name_and_operands_of_row : ∀ row ∈ srcRows, ∀ (ops : List SrcOperand) (i : Instr), row.2.Makes ops i →
    row.1 ∈ specNames i ∧ ops = specOperands i := by
  simp only [srcRows, List.cons_append, List.nil_append, List.forall_mem_cons, forall_makes_noOperand, forall_makes_address,
    forall_makes_regImm, forall_makes_regReg]
  simp [specNames, specOperands]

/-- Settles O57: the check accepts what a row of the mnemonic makes of the operands, and the rows are the spec's names with the spec's operands. -/
theorem sourceCheckAcceptsExactlyTheSpecSyntax : Obligations.SourceCheckAcceptsExactlyTheSpecSyntax := by
  unfold Obligations.SourceCheckAcceptsExactlyTheSpecSyntax
  intro si i
  rw [check_ok_iff]
  constructor
  · rintro ⟨sh, hrow, hmakes⟩
    exact name_and_operands_of_row _ hrow _ _ hmakes
  · rintro ⟨hname, hoperands⟩
    exact ⟨shapeOfInstr i, mem_srcRows_of_name i _ hname, hoperands ▸ shapeOfInstr_makes i⟩

/-- Settles O8: the operands are the instruction's own values, which its types hold within their fields. -/
theorem acceptedSourceOperandsFitTheirFields : Obligations.AcceptedSourceOperandsFitTheirFields := by
  unfold Obligations.AcceptedSourceOperandsFitTheirFields
  intro si i h
  have hoperands := ((sourceCheckAcceptsExactlyTheSpecSyntax si i).mp h).2
  refine ⟨hoperands, ?_⟩
  rw [hoperands]
  cases i <;> simp [specOperands] <;> omega

/-! ### The bytes laid down -/

/-- An instruction the assembler accepts is one the check makes of its resolved operands, laid down as that instruction's word. -/
theorem assembleItem_instr_ok {table : List (List Char × Nat)} {m : List Char} {ops : List Machine.AsmOperand} {bs : List Byte}
    (h : Machine.assembleItem table (.instr m ops) = .ok bs) : ∃ srcOps i, Machine.resolveOperands table ops = .ok srcOps ∧
      SrcInstr.check { mnemonic := String.ofList m, operands := srcOps } = .ok i ∧ bs = encodeBytes i := by
  rw [Machine.assembleItem] at h
  split at h
  · cases h
  · split at h
    · cases h
      exact ⟨_, _, ‹_›, ‹_›, rfl⟩
    · cases h

/-- Settles O7: what is laid down is the two bytes of the checked instruction's word, which decode to it. -/
theorem mnemonicAssemblesToOneWord : Obligations.MnemonicAssemblesToOneWord := by
  unfold Obligations.MnemonicAssemblesToOneWord
  intro table m ops bs h
  obtain ⟨srcOps, i, hresolve, hcheck, rfl⟩ := assembleItem_instr_ok h
  exact ⟨srcOps, i, hresolve, hcheck, rfl, by simpa using decodeBytes_encodeBytes i []⟩

end Sys2Proof
end

section
/-! PROOF. What a handler does to the state and what a step does, said once for the statements about the engine. -/

namespace Sys2Proof.Machine

/-! ### Frames from fields -/

section Frames

variable {s t : State}

theorem sameRegs_of_V (h : t.V = s.V) (written : List Reg) : SameRegsBut written s t := fun r _ => readV_congr h r

theorem sameStack_of_fields (hsp : t.sp = s.sp) (hS : t.S = s.S) : SameStack s t := ⟨hsp, slot_congr hS⟩

theorem sameMemory_of_M (h : t.M = s.M) : SameMemory s t := byteAt_congr h

/-- The advance writes `pc` alone (40_engine R102). -/
theorem advance_frame (s : State) : SameRegsBut [] s s.advance ∧ SameStack s s.advance ∧ SameMemory s s.advance ∧ SameStatus s s.advance :=
  ⟨sameRegs_of_V rfl _, sameStack_of_fields rfl rfl, sameMemory_of_M rfl, rfl, rfl⟩

@[simp] theorem readV_advance (s : State) (x : Reg) : s.advance.readV x = s.readV x := rfl

/-- A fatal error writes the status alone (60_exceptions R186). -/
theorem raiseFatal_frame (s : State) (r : FaultRecord) : SameRegsBut [] s (s.raiseFatal r) ∧ SameStack s (s.raiseFatal r) ∧
    SameMemory s (s.raiseFatal r) ∧ (s.raiseFatal r).signals = s.signals :=
  ⟨sameRegs_of_V rfl _, sameStack_of_fields rfl rfl, sameMemory_of_M rfl, rfl⟩

end Frames

/-! ### The instruction about to run -/

/-- An instruction is about to run exactly where its word lies. -/
theorem aboutToRun_iff {s : State} {i : Instr} : AboutToRun s i ↔ s.status = .running ∧ FetchesWord s (encode i) := by
  constructor
  · rintro ⟨hr, op, hf, hd⟩
    exact ⟨hr, encode_of_decode hd ▸ hf⟩
  · rintro ⟨hr, hf⟩
    exact ⟨hr, _, hf, decode_encode i⟩

theorem step_of_aboutToRun {s : State} {i : Instr} (h : AboutToRun s i) : step s = exec i s.advance := by
  obtain ⟨hr, op, hf, hd⟩ := h
  exact step_known hr hf hd

/-- A word that is fetched lies below 0xFFF. -/
theorem pc_lt_of_fetchesWord {s : State} {op : Word} (h : FetchesWord s op) : s.pc.toNat < 0xFFF := by
  have := h.1
  simp only [Config.memSize] at this
  omega

theorem aboutToRun_advance {s : State} {i : Instr} (h : AboutToRun s i) : s.advance.pc.toNat = s.pc.toNat + 2 :=
  fetchesWord_advance (aboutToRun_iff.mp h).2

/-! ### Handlers -/

/-- A return with `j + 1` frames (42_control_flow R130). -/
theorem exec_ret_of_frame {s : State} {j : Fin 16} (hsp : s.sp.val = j.val + 1) :
    exec .ret s = .next { s with pc := s.slot j, sp := j.castSucc } := by
  have hpop : s.pop? = some (s.slot j, { s with sp := j.castSucc }) := by
    refine pop?_spec.mpr ⟨by omega, ?_, ?_⟩
    · simp [State.slot, hsp]
    · congr 1
      ext
      simp [hsp]
  exact execRet_of_pop hpop

theorem exec_ret_of_empty {s : State} (hsp : s.sp = 0) : exec .ret s = .next (s.raiseInHandler .stackUnderflow (encode .ret)) :=
  execRet_of_empty (pop?_none.mpr (by simp [hsp]))

/-- A call with `j` frames, fewer than 16 (42_control_flow R132). -/
theorem exec_call_of_room {s : State} {j : Fin 16} (nnn : Addr12) (hsp : s.sp.val = j.val) :
    exec (.call nnn) s = .next { s with pc := nnn.setWidth 16, S := s.S.set j.val s.pc, sp := j.succ } := by
  have hpush : s.push? s.pc = some { s with S := s.S.set j.val s.pc, sp := j.succ } := by
    refine push?_spec.mpr ⟨by omega, ?_⟩
    simp [hsp, Fin.ext_iff]
  exact execCall_of_push hpush

/-- A slot read after a call's push. -/
theorem slot_pushed (s : State) (pc w : Word) (sp : Fin 17) (j i : Fin 16) :
    State.slot { s with pc := pc, S := s.S.set j.val w, sp := sp } i = if i.val = j.val then w else s.slot i := by
  simp [State.slot, Vector.getElem_set, eq_comm]

theorem exec_call_of_full {s : State} (nnn : Addr12) (hsp : s.sp = 16) :
    exec (.call nnn) s = .next (s.raiseInHandler .stackOverflow (encode (.call nnn))) :=
  execCall_of_full (push?_none.mpr (by simp [hsp]))

/-- The two outcomes of a return (42_control_flow R130). -/
theorem exec_ret_next {s t : State} (h : exec .ret s = .next t) :
    (∃ j : Fin 16, s.sp.val = j.val + 1 ∧ t = { s with pc := s.slot j, sp := j.castSucc }) ∨
    (s.sp = 0 ∧ t = s.raiseInHandler .stackUnderflow (encode .ret)) := by
  rcases Fin.eq_zero_or_eq_succ s.sp with hsp | ⟨j, hsp⟩
  · cases (exec_ret_of_empty hsp).symm.trans h
    exact .inr ⟨hsp, rfl⟩
  · have hj : s.sp.val = j.val + 1 := by simp [hsp]
    cases (exec_ret_of_frame hj).symm.trans h
    exact .inl ⟨j, hj, rfl⟩

/-- The two outcomes of a call (42_control_flow R132). -/
theorem exec_call_next {s t : State} {nnn : Addr12} (h : exec (.call nnn) s = .next t) :
    (∃ j : Fin 16, s.sp.val = j.val ∧ t = { s with pc := nnn.setWidth 16, S := s.S.set j.val s.pc, sp := j.succ }) ∨
    (s.sp = 16 ∧ t = s.raiseInHandler .stackOverflow (encode (.call nnn))) := by
  rcases Fin.eq_castSucc_or_eq_last s.sp with ⟨j, hsp⟩ | hsp
  · have hj : s.sp.val = j.val := by simp [hsp]
    cases (exec_call_of_room nnn hj).symm.trans h
    exact .inl ⟨j, hj, rfl⟩
  · cases (exec_call_of_full nnn hsp).symm.trans h
    exact .inr ⟨hsp, rfl⟩

/-- The condition of a skip on a state; none for any other instruction (43_skip). -/
def skipCond (s : State) : Instr → Option Bool
  | .skipEqImm x kk => some (s.readV x == kk)
  | .skipNeImm x kk => some (s.readV x != kk)
  | .skipEqReg x y => some (s.readV x == s.readV y)
  | _ => none

/-- The effects a handler can have (41_system to 45_alu), each with what it leaves as it was. -/
inductive HandlerEffect (s : State) : Instr → State → Prop
  | halt : HandlerEffect s .halt s.enterHalted
  | clearDisplay : HandlerEffect s .clearDisplay s.emitClear
  | jump (nnn : Addr12) : HandlerEffect s (.jump nnn) (s.jumpTo nnn)
  | pop (j : Fin 16) (hsp : s.sp.val = j.val + 1) : HandlerEffect s .ret { s with pc := s.slot j, sp := j.castSucc }
  | underflow (hsp : s.sp = 0) : HandlerEffect s .ret (s.raiseInHandler .stackUnderflow (encode .ret))
  | push (nnn : Addr12) (j : Fin 16) (hsp : s.sp.val = j.val) :
      HandlerEffect s (.call nnn) { s with pc := nnn.setWidth 16, S := s.S.set j.val s.pc, sp := j.succ }
  | overflow (nnn : Addr12) (hsp : s.sp = 16) : HandlerEffect s (.call nnn) (s.raiseInHandler .stackOverflow (encode (.call nnn)))
  | skip (i : Instr) (cond : Bool) (hcond : skipCond s i = some cond) : HandlerEffect s i (s.skipIf cond)
  | write (i : Instr) (V : Vector Byte 16) (hi : regsWritten i ≠ []) : HandlerEffect s i { s with V := V }

theorem exec_effect {i : Instr} {s t : State} (h : exec i s = .next t) : HandlerEffect s i t := by
  cases i
  case ret =>
    rcases exec_ret_next h with ⟨j, hj, rfl⟩ | ⟨hsp, rfl⟩
    · exact .pop j hj
    · exact .underflow hsp
  case call nnn =>
    rcases exec_call_next h with ⟨j, hj, rfl⟩ | ⟨hsp, rfl⟩
    · exact .push nnn j hj
    · exact .overflow nnn hsp
  case halt => cases h; exact .halt
  case clearDisplay => cases h; exact .clearDisplay
  case jump nnn => cases h; exact .jump nnn
  case skipEqImm | skipNeImm | skipEqReg => cases h; exact .skip _ _ rfl
  case loadImm | addImm | copy | bitOr | bitAnd | bitXor | addReg => cases h; exact .write _ _ (by simp [regsWritten])

namespace HandlerEffect

variable {s t : State} {i : Instr}

theorem M_eq (h : HandlerEffect s i t) : t.M = s.M := by
  cases h
  case skip cond _ => exact skipIf_M s cond
  all_goals rfl

theorem signals_eq (h : HandlerEffect s i t) (hi : i ≠ .clearDisplay) : t.signals = s.signals := by
  cases h
  case clearDisplay => exact absurd rfl hi
  case skip cond _ => exact skipIf_signals s cond
  all_goals rfl

/-- No handler but a halt and one that takes a fatal error writes the status. -/
theorem status_cases (h : HandlerEffect s i t) : t.status = s.status ∨ (i = .halt ∧ t.status = .halted) ∨ ∃ r, t.status = .faulted r := by
  cases h
  case halt => exact .inr (.inl ⟨rfl, rfl⟩)
  case underflow | overflow => exact .inr (.inr ⟨_, rfl⟩)
  case skip cond _ => exact .inl (skipIf_status s cond)
  all_goals exact .inl rfl

/-- The fatal errors of a handler are the two of the call stack (60_exceptions R181, R182). -/
theorem fault_cases (h : HandlerEffect s i t) {r : FaultRecord} (hr : t.status = .faulted r) (hs : s.status ≠ .faulted r) :
    (i = .ret ∧ s.sp = 0 ∧ t = s.raiseInHandler .stackUnderflow (encode .ret)) ∨
    (∃ nnn, i = .call nnn ∧ s.sp = 16 ∧ t = s.raiseInHandler .stackOverflow (encode (.call nnn))) := by
  cases h
  case underflow hsp => exact .inl ⟨rfl, hsp, rfl⟩
  case overflow nnn hsp => exact .inr ⟨nnn, rfl, hsp, rfl⟩
  case halt => cases hr
  case skip cond _ => exact absurd ((skipIf_status s cond).symm.trans hr) hs
  all_goals exact absurd hr hs

/-- The call stack is written by a successful return or call alone (10_state R29, R30). -/
theorem stack_cases (h : HandlerEffect s i t) : (t.sp = s.sp ∧ t.S = s.S) ∨
    (i = .ret ∧ ∃ j : Fin 16, s.sp.val = j.val + 1 ∧ t = { s with pc := s.slot j, sp := j.castSucc }) ∨
    (∃ nnn, i = .call nnn ∧ ∃ j : Fin 16, s.sp.val = j.val ∧ t = { s with pc := nnn.setWidth 16, S := s.S.set j.val s.pc, sp := j.succ }) := by
  cases h
  case pop j hsp => exact .inr (.inl ⟨rfl, j, hsp, rfl⟩)
  case push nnn j hsp => exact .inr (.inr ⟨nnn, rfl, j, hsp, rfl⟩)
  case skip cond _ => exact .inl ⟨skipIf_sp s cond, skipIf_S s cond⟩
  all_goals exact .inl ⟨rfl, rfl⟩

theorem pc_eq_of_straight (h : HandlerEffect s i t) (hi : redirectsPc i = false) : t.pc = s.pc := by
  cases h
  case jump | pop | push | underflow | overflow => cases hi
  case skip cond hcond => cases i <;> simp_all [skipCond, redirectsPc]
  all_goals rfl

end HandlerEffect

/-! ### A step -/

/-- Every way a step can end, with the handler's effect (40_engine R100). -/
theorem step_effect {s t : State} (h : step s = .next t) : s.status = .running ∧
    ((0xFFF ≤ s.pc.toNat ∧ ∃ a, fetch s = .error a ∧ t = s.raiseFetchFault a) ∨
     (∃ op, FetchesWord s op ∧ decode op = .unknown op ∧ t = s.advance.raiseUnimplemented op) ∨
     (∃ i, AboutToRun s i ∧ HandlerEffect s.advance i t)) := by
  obtain ⟨hr, ⟨a, ha, rfl⟩ | ⟨op, hf, hd, rfl⟩ | ⟨op, i, hf, hd, hexec⟩⟩ := step_cases h
  · exact ⟨hr, .inl ⟨(fetch_error_iff.mp ha).1, a, ha, rfl⟩⟩
  · exact ⟨hr, .inr (.inl ⟨op, hf, hd, rfl⟩)⟩
  · exact ⟨hr, .inr (.inr ⟨i, ⟨hr, op, hf, hd⟩, exec_effect hexec⟩)⟩

theorem step_M {s t : State} (h : step s = .next t) : t.M = s.M := by
  obtain ⟨-, ⟨-, a, -, rfl⟩ | ⟨op, -, -, rfl⟩ | ⟨i, -, heff⟩⟩ := step_effect h
  · rfl
  · rfl
  · exact heff.M_eq

/-- The statuses a step can leave (10_state R31). -/
theorem step_status_cases {s t : State} (h : step s = .next t) :
    t.status = .running ∨ (t.status = .halted ∧ AboutToRun s .halt) ∨ ∃ r, t.status = .faulted r := by
  obtain ⟨hr, ⟨-, a, -, rfl⟩ | ⟨op, -, -, rfl⟩ | ⟨i, hi, heff⟩⟩ := step_effect h
  · exact .inr (.inr ⟨_, rfl⟩)
  · exact .inr (.inr ⟨_, rfl⟩)
  · rcases heff.status_cases with hkeep | ⟨rfl, hhalt⟩ | hfault
    · exact .inl (hkeep.trans hr)
    · exact .inr (.inl ⟨hhalt, hi⟩)
    · exact .inr (.inr hfault)

/-- A step's fatal error after the fetch: the word, its kind and the kind's condition (60_exceptions R181-R183). -/
def WordFault (s : State) (kind : FaultKind) (op : Word) : Prop :=
  (kind = .unimplementedOpcode ∧ decode op = .unknown op) ∨
  (kind = .stackUnderflow ∧ op = encode .ret ∧ s.sp = 0) ∨
  (kind = .stackOverflow ∧ (∃ nnn, op = encode (.call nnn)) ∧ s.sp = 16)

/-- A step that ends Faulted has failed to fetch, or has advanced and met one of the three faults of a word; the state is the one that met the fault, with the status set (60_exceptions R186). -/
theorem step_fault_cases {s t : State} {r : FaultRecord} (h : step s = .next t) (hr : t.status = .faulted r) :
    (∃ a, fetch s = .error a ∧ r = { kind := .outOfBoundsAccess, pc := s.pc, opcode := none, addr := some (BitVec.ofNat 16 a) } ∧
      t = s.raiseFatal r) ∨
    (∃ kind op, FetchesWord s op ∧ WordFault s kind op ∧ r = { kind := kind, pc := s.pc, opcode := some op, addr := none } ∧
      t = s.advance.raiseFatal r) := by
  obtain ⟨hrun, ⟨-, a, ha, rfl⟩ | ⟨op, hf, hd, rfl⟩ | ⟨i, hi, heff⟩⟩ := step_effect h
  · cases hr
    exact .inl ⟨a, ha, rfl, rfl⟩
  · rw [raiseUnimplemented_status, instrAddr_advance] at hr
    cases hr
    exact .inr ⟨_, op, hf, .inl ⟨rfl, hd⟩, rfl, by simp [State.raiseUnimplemented, State.raiseInHandler]⟩
  · have hf := (aboutToRun_iff.mp hi).2
    rcases heff.fault_cases hr (by simp [hrun]) with ⟨rfl, hsp, rfl⟩ | ⟨nnn, rfl, hsp, rfl⟩
    · rw [raiseInHandler_status, instrAddr_advance] at hr
      cases hr
      exact .inr ⟨_, _, hf, .inr (.inl ⟨rfl, rfl, hsp⟩), rfl, by simp [State.raiseInHandler]⟩
    · rw [raiseInHandler_status, instrAddr_advance] at hr
      cases hr
      exact .inr ⟨_, _, hf, .inr (.inr ⟨rfl, ⟨nnn, rfl⟩, hsp⟩), rfl, by simp [State.raiseInHandler]⟩

/-- What a step does to the call stack. -/
theorem step_stack_cases {s t : State} (h : step s = .next t) : (t.sp = s.sp ∧ t.S = s.S) ∨
    (AboutToRun s .ret ∧ ∃ j : Fin 16, s.sp.val = j.val + 1 ∧ t = { s with pc := s.slot j, sp := j.castSucc }) ∨
    (∃ nnn, AboutToRun s (.call nnn) ∧ ∃ j : Fin 16, s.sp.val = j.val ∧
      t = { s with pc := nnn.setWidth 16, S := s.S.set j.val s.advance.pc, sp := j.succ }) := by
  obtain ⟨-, ⟨-, a, -, rfl⟩ | ⟨op, -, -, rfl⟩ | ⟨i, hi, heff⟩⟩ := step_effect h
  · exact .inl ⟨rfl, rfl⟩
  · exact .inl ⟨rfl, rfl⟩
  · rcases heff.stack_cases with hkeep | ⟨rfl, hpop⟩ | ⟨nnn, rfl, hpush⟩
    · exact .inl hkeep
    · exact .inr (.inl ⟨hi, hpop⟩)
    · exact .inr (.inr ⟨nnn, hi, hpush⟩)

end Sys2Proof.Machine
end

section
/-! PROOF. The engine: fetch, step, the fatal errors, and where each instruction leaves the program counter. -/

namespace Sys2Proof.Machine

/-! ### Fetch and dispatch -/

/-- Settles O9: the step of a decoded word is its handler on the advanced state, and the advance writes `pc` alone. -/
theorem stepRunsTheDecodedInstruction : Obligations.StepRunsTheDecodedInstruction := by
  unfold Obligations.StepRunsTheDecodedInstruction
  exact fun s op i hr hf hd => ⟨step_known hr hf hd, fetchesWord_advance hf, advance_frame s⟩

/-- Big-endian: the byte at the lower address counts 256 (20_memory R54). -/
theorem wordOfBytes_toNat (hi lo : Byte) : (wordOfBytes hi lo).toNat = hi.toNat * 256 + lo.toNat := by
  rw [wordOfBytes, BitVec.toNat_append, ← Nat.shiftLeft_add_eq_or_of_lt lo.isLt, Nat.shiftLeft_eq]

/-- Settles O10: a fetch answers the word of the two bytes where both lie in memory, and a word is its number. -/
theorem fetchReadsTwoBytesBigEndian : Obligations.FetchReadsTwoBytesBigEndian := by
  unfold Obligations.FetchReadsTwoBytesBigEndian
  intro s op
  rw [fetch_ok_iff, FetchesWord, ← wordOfBytes_toNat, ← BitVec.toNat_eq]
  rfl

/-- Settles O11: the step of an Unknown word sets the status of the advanced state and nothing else. -/
theorem unknownWordIsAFatalError : Obligations.UnknownWordIsAFatalError := by
  unfold Obligations.UnknownWordIsAFatalError
  intro s op hr hf hd
  refine ⟨_, step_unknown hr hf hd, ?record, rfl, fetchesWord_advance hf, raiseFatal_frame s.advance _⟩
  case record => rw [raiseUnimplemented_status, instrAddr_advance]

/-- The first address outside memory that a fetch at 0xFFF or above meets, as the record holds it (20_memory R61). -/
theorem fetch_error_addr {s : State} (hpc : 0xFFF ≤ s.pc.toNat) :
    ∃ a, fetch s = .error a ∧ BitVec.ofNat 16 a = if s.pc = 0xFFF#16 then 0x1000#16 else s.pc := by
  refine ⟨_, fetch_error_iff.mpr ⟨hpc, rfl⟩, ?_⟩
  by_cases h : s.pc = 0xFFF#16
  · simp [h]
  · have hne : s.pc.toNat ≠ 0xFFF := fun heq => h (BitVec.eq_of_toNat_eq heq)
    simp [h, hne]

/-- Settles O12: a fetch at 0xFFF or above fails, and its fatal error sets the status and nothing else. -/
theorem fetchOutsideMemoryIsAFatalError : Obligations.FetchOutsideMemoryIsAFatalError := by
  unfold Obligations.FetchOutsideMemoryIsAFatalError
  intro s hr hpc
  obtain ⟨a, hfetch, haddr⟩ := fetch_error_addr hpc
  refine ⟨_, step_fetch_fault hr hfetch, ?record, rfl, rfl, raiseFatal_frame s _⟩
  case record => rw [raiseFetchFault_status, haddr]

/-- A running machine steps: its fetch fails, or its word is Unknown, or its word's handler answers a next state. -/
theorem step_next_of_running {s : State} (hr : s.status = .running) : ∃ t, step s = .next t := by
  cases hfetch : fetch s with
  | error a => exact ⟨_, step_fetch_fault hr hfetch⟩
  | ok op =>
    have hf := fetch_ok_iff.mp hfetch
    cases hd : decode op with
    | unknown w =>
      obtain rfl := decode_unknown hd
      exact ⟨_, step_unknown hr hf hd⟩
    | known i =>
      rw [step_known hr hf hd]
      exact exec_next i s.advance

/-- Settles O14: a running machine steps whatever it fetches, and a step's state was running. -/
theorem runningMachineAlwaysSteps : Obligations.RunningMachineAlwaysSteps := by
  unfold Obligations.RunningMachineAlwaysSteps
  exact fun s => ⟨step_next_of_running, fun hr t h => hr (step_effect h).1⟩

/-! ### Fatal errors -/

section FaultConditions

variable {s t : State}

/-- A step's fatal error tells its condition (60_exceptions R180). -/
theorem condition_of_fault {r : FaultRecord} (h : step s = .next t) (hr : t.status = .faulted r) :
    (r.kind = .outOfBoundsAccess ∧ 0xFFF ≤ s.pc.toNat) ∨
    (r.kind = .unimplementedOpcode ∧ ∃ op, FetchesWord s op ∧ decode op = .unknown op) ∨
    (r.kind = .stackUnderflow ∧ AboutToRun s .ret ∧ s.sp = 0) ∨
    (r.kind = .stackOverflow ∧ (∃ nnn, AboutToRun s (.call nnn)) ∧ s.sp = 16) := by
  have hrun := (step_effect h).1
  obtain ⟨a, ha, rfl, -⟩ | ⟨kind, op, hf, hkind, rfl, -⟩ := step_fault_cases h hr
  · exact .inl ⟨rfl, (fetch_error_iff.mp ha).1⟩
  · obtain ⟨rfl, hd⟩ | ⟨rfl, rfl, hsp⟩ | ⟨rfl, ⟨nnn, rfl⟩, hsp⟩ := hkind
    · exact .inr (.inl ⟨rfl, op, hf, hd⟩)
    · exact .inr (.inr (.inl ⟨rfl, aboutToRun_iff.mpr ⟨hrun, hf⟩, hsp⟩))
    · exact .inr (.inr (.inr ⟨rfl, ⟨nnn, aboutToRun_iff.mpr ⟨hrun, hf⟩⟩, hsp⟩))

theorem fault_of_next {u : State} {r : FaultRecord} (h : step s = .next t) (hu : step s = .next u) (hr : u.status = .faulted r) :
    ∃ r', t.status = .faulted r' ∧ r'.kind = r.kind := by
  cases h.symm.trans hu
  exact ⟨r, hr, rfl⟩

theorem outOfBounds_of_pc (h : step s = .next t) (hpc : 0xFFF ≤ s.pc.toNat) : ∃ r, t.status = .faulted r ∧ r.kind = .outOfBoundsAccess := by
  obtain ⟨a, hfetch, -⟩ := fetch_error_addr hpc
  exact fault_of_next h (step_fetch_fault (step_effect h).1 hfetch) rfl

theorem unimplemented_of_unknown {op : Word} (h : step s = .next t) (hf : FetchesWord s op) (hd : decode op = .unknown op) :
    ∃ r, t.status = .faulted r ∧ r.kind = .unimplementedOpcode :=
  fault_of_next h (step_unknown (step_effect h).1 hf hd) rfl

theorem underflow_of_ret (h : step s = .next t) (hi : AboutToRun s .ret) (hsp : s.sp = 0) :
    ∃ r, t.status = .faulted r ∧ r.kind = .stackUnderflow :=
  fault_of_next h ((step_of_aboutToRun hi).trans (exec_ret_of_empty hsp)) rfl

theorem overflow_of_call {nnn : Addr12} (h : step s = .next t) (hi : AboutToRun s (.call nnn)) (hsp : s.sp = 16) :
    ∃ r, t.status = .faulted r ∧ r.kind = .stackOverflow :=
  fault_of_next h ((step_of_aboutToRun hi).trans (exec_call_of_full nnn hsp)) rfl

end FaultConditions

/-- Settles O15: each condition forces its fatal error, and a fatal error's kind tells which condition it had. -/
theorem eachFatalErrorExactlyUnderItsCondition : Obligations.EachFatalErrorExactlyUnderItsCondition := by
  unfold Obligations.EachFatalErrorExactlyUnderItsCondition
  intro s t h
  refine ⟨⟨?_, outOfBounds_of_pc h⟩, ⟨?_, fun ⟨op, hf, hd⟩ => unimplemented_of_unknown h hf hd⟩,
    ⟨?_, fun ⟨hi, hsp⟩ => underflow_of_ret h hi hsp⟩, ⟨?_, fun ⟨⟨nnn, hi⟩, hsp⟩ => overflow_of_call h hi hsp⟩⟩ <;>
  · rintro ⟨r, hr, hkind⟩
    simpa [hkind] using condition_of_fault h hr

/-- Settles O16: a fatal error sets the status of the state that met it, which is the step's own or, after a word, its advance. -/
theorem fatalErrorsArePrecise : Obligations.FatalErrorsArePrecise := by
  unfold Obligations.FatalErrorsArePrecise
  intro s t r h hr
  obtain ⟨a, -, rfl, rfl⟩ | ⟨kind, op, hf, hkind, rfl, rfl⟩ := step_fault_cases h hr
  · exact ⟨rfl, fun _ => rfl, fun hne => absurd rfl hne, raiseFatal_frame s _⟩
  · refine ⟨rfl, fun hout => ?_, fun _ => ⟨fetchesWord_advance hf, op, rfl, hf⟩, raiseFatal_frame s.advance _⟩
    subst hout
    simp [WordFault] at hkind

/-! ### What only some instructions do -/

/-- Settles O17: a step that enters Halted ran halt, whose word is 0x0000, and where that word lies halt runs. -/
theorem onlyTheZeroWordHalts : Obligations.OnlyTheZeroWordHalts := by
  unfold Obligations.OnlyTheZeroWordHalts
  intro s t h
  constructor
  · intro hhalted
    rcases step_status_cases h with hr | ⟨-, hi⟩ | ⟨r, hr⟩
    · cases hr.symm.trans hhalted
    · exact (aboutToRun_iff.mp hi).2
    · cases hr.symm.trans hhalted
  · intro hf
    have hi : AboutToRun s .halt := aboutToRun_iff.mpr ⟨(step_effect h).1, hf⟩
    cases (step_of_aboutToRun hi).symm.trans h
    rfl

/-- Settles O18: clear-display, whose word is 0x00E0, appends one signal, and no other effect touches the sequence. -/
theorem signalsAreSentOnlyByClearDisplay : Obligations.SignalsAreSentOnlyByClearDisplay := by
  unfold Obligations.SignalsAreSentOnlyByClearDisplay
  intro s t h
  obtain ⟨hr, heffect⟩ := step_effect h
  constructor
  · intro hf
    have hi : AboutToRun s .clearDisplay := aboutToRun_iff.mpr ⟨hr, hf⟩
    cases (step_of_aboutToRun hi).symm.trans h
    rfl
  · intro hf
    obtain ⟨-, a, -, rfl⟩ | ⟨op, -, -, rfl⟩ | ⟨i, hi, heff⟩ := heffect
    · rfl
    · rfl
    · apply heff.signals_eq
      rintro rfl
      exact hf (aboutToRun_iff.mp hi).2

/-- Settles O19: a step leaves the call stack, or pops by moving `sp` alone, or pushes in slot `sp`. -/
theorem stackIsUsedOnlyByCallAndReturn : Obligations.StackIsUsedOnlyByCallAndReturn := by
  unfold Obligations.StackIsUsedOnlyByCallAndReturn
  intro s t h
  rcases step_stack_cases h with ⟨hsp, hS⟩ | ⟨hi, j, -, rfl⟩ | ⟨nnn, hi, j, hj, rfl⟩
  · exact ⟨fun hne => absurd hsp hne, fun i hne => absurd (slot_congr hS i) hne⟩
  · exact ⟨fun _ => .inr hi, fun i hne => absurd rfl hne⟩
  · refine ⟨fun _ => .inl ⟨nnn, hi⟩, fun i hne => ⟨⟨nnn, hi⟩, ?_⟩⟩
    by_contra hij
    exact hne ((slot_pushed s _ _ _ j i).trans (if_neg (hj ▸ hij)))

/-! ### The program counter -/

/-- Settles O24: the advance moves `pc` by 2, and the handler leaves it there. -/
theorem straightLineCodeAdvancesPcByTwo : Obligations.StraightLineCodeAdvancesPcByTwo := by
  unfold Obligations.StraightLineCodeAdvancesPcByTwo
  intro s i hi hstraight
  obtain ⟨t, ht⟩ := exec_next i s.advance
  refine ⟨t, (step_of_aboutToRun hi).trans ht, ?_⟩
  rw [(exec_effect ht).pc_eq_of_straight hstraight, aboutToRun_advance hi]

/-- A skip after the advance: 4 beyond the instruction where the condition holds, 2 where it does not (43_skip R139). -/
theorem skipIf_advance_pc {s : State} {op : Word} (hf : FetchesWord s op) (cond : Bool) :
    (s.advance.skipIf cond).pc.toNat = s.pc.toNat + if cond then 4 else 2 := by
  have hadvance := fetchesWord_advance hf
  have hlt := pc_lt_of_fetchesWord hf
  cases cond
  · exact hadvance
  · rw [skipIf_pc, if_pos rfl, BitVec.toNat_add, hadvance]
    simp
    omega

/-- Settles O25: the pc of each effect of a handler on the advanced state, the two stack faults being excluded. -/
theorem pcAfterEachInstruction : Obligations.PcAfterEachInstruction := by
  unfold Obligations.PcAfterEachInstruction
  intro s t i hi h hno
  have hf := (aboutToRun_iff.mp hi).2
  have hadvance := aboutToRun_advance hi
  refine ⟨hadvance, ?_⟩
  rw [step_of_aboutToRun hi] at h
  cases i
  case ret =>
    rcases exec_ret_next h with ⟨j, hj, rfl⟩ | ⟨-, rfl⟩
    · exact ⟨j, hj, rfl⟩
    · exact absurd rfl (hno _)
  case call nnn =>
    rcases exec_call_next h with ⟨j, -, rfl⟩ | ⟨-, rfl⟩
    · exact jumpTo_pc_toNat s nnn
    · exact absurd rfl (hno _)
  case jump nnn => cases h; exact jumpTo_pc_toNat _ nnn
  case skipEqImm x kk => cases h; simp [skipIf_advance_pc hf]
  case skipNeImm x kk => cases h; simp [skipIf_advance_pc hf]
  case skipEqReg x y => cases h; simp [skipIf_advance_pc hf]
  case halt | clearDisplay | loadImm | addImm | copy | bitOr | bitAnd | bitXor | addReg => cases h; exact hadvance

end Sys2Proof.Machine
end

section
/-! PROOF. Single instructions: the system words, return and call, and the add with carry. -/

namespace Sys2Proof.Machine

/-! ### System words -/

theorem exec_halt (s : State) : exec .halt s = .next s.enterHalted := rfl

theorem exec_clearDisplay (s : State) : exec .clearDisplay s = .next s.emitClear := rfl

/-- Settles O32: halt writes the status alone. -/
theorem haltStopsTheRun : Obligations.HaltStopsTheRun := by
  unfold Obligations.HaltStopsTheRun
  exact fun s => ⟨_, exec_halt s, enterHalted_status s, enterHalted_pc s, enterHalted_signals s,
    sameRegs_of_V (enterHalted_V s) _, sameStack_of_fields (enterHalted_sp s) (enterHalted_S s), sameMemory_of_M (enterHalted_M s)⟩

/-- Settles O33: clear-display writes the sequence of signals alone. -/
theorem clearDisplaySendsOneSignal : Obligations.ClearDisplaySendsOneSignal := by
  unfold Obligations.ClearDisplaySendsOneSignal
  exact fun s => ⟨_, exec_clearDisplay s, emitClear_signals s, emitClear_status s, emitClear_pc s,
    sameRegs_of_V (emitClear_V s) _, sameStack_of_fields (emitClear_sp s) (emitClear_S s), sameMemory_of_M (emitClear_M s)⟩

/-! ### Return and call -/

/-- Settles O34: the pop writes `sp` and `pc` alone. -/
theorem returnPopsItsTarget : Obligations.ReturnPopsItsTarget := by
  unfold Obligations.ReturnPopsItsTarget
  exact fun s i hsp => ⟨_, exec_ret_of_frame hsp, rfl, rfl, fun _ => rfl, sameRegs_of_V rfl _, sameMemory_of_M rfl, rfl, rfl⟩

/-- Settles O35: a return without a frame sets the status and nothing else. -/
theorem returnOnEmptyStackUnderflows : Obligations.ReturnOnEmptyStackUnderflows := by
  unfold Obligations.ReturnOnEmptyStackUnderflows
  exact fun s hsp => ⟨_, exec_ret_of_empty hsp, rfl, rfl, rfl, raiseFatal_frame s _⟩

/-- Settles O37: the push writes slot `sp`, `sp` and `pc` alone. -/
theorem callPushesTheReturnAddress : Obligations.CallPushesTheReturnAddress := by
  unfold Obligations.CallPushesTheReturnAddress
  intro nnn s hlt
  obtain ⟨j, hj⟩ : ∃ j : Fin 16, s.sp.val = j.val := ⟨⟨s.sp.val, hlt⟩, rfl⟩
  refine ⟨_, exec_call_of_room nnn hj, ?sp, jumpTo_pc_toNat s nnn, ?pushed, ?others, sameRegs_of_V rfl _, sameMemory_of_M rfl, rfl, rfl⟩
  case sp => simp [hj]
  case pushed =>
    intro i hi
    exact (slot_pushed s _ _ _ j i).trans (if_pos (hi.trans hj))
  case others =>
    intro i hi
    exact (slot_pushed s _ _ _ j i).trans (if_neg (hj ▸ hi))

/-- The word of a call as a number (30_encoding R73). -/
theorem encode_call (nnn : Addr12) : encode (.call nnn) = BitVec.ofNat 16 (0x2000 + nnn.toNat) := by
  have hlt := nnn.isLt
  apply BitVec.eq_of_toNat_eq
  rw [encode, wordN, BitVec.toNat_append, ← Nat.shiftLeft_add_eq_or_of_lt hlt, Nat.shiftLeft_eq, BitVec.toNat_ofNat]
  simp
  omega

/-- Settles O38: a call with 16 frames sets the status and nothing else, and its word is 0x2000 with `nnn`. -/
theorem callOnFullStackOverflows : Obligations.CallOnFullStackOverflows := by
  unfold Obligations.CallOnFullStackOverflows
  intro nnn s hsp
  refine ⟨_, exec_call_of_full nnn hsp, ?record, rfl, rfl, raiseFatal_frame s _⟩
  case record =>
    rw [raiseInHandler_status, encode_call]
    rfl

/-! ### The add with carry -/

theorem carryOf_eq (a b : Byte) : carryOf a b = if a.toNat + b.toNat > 255 then 1#8 else 0#8 := rfl

/-- Settles O50: a sum of two bytes is below 512, so its ninth bit is set exactly above 255. -/
theorem carryIsTheNinthBit : Obligations.CarryIsTheNinthBit := by
  unfold Obligations.CarryIsTheNinthBit
  intro a b
  have ha := a.isLt
  have hb := b.isLt
  constructor
  · rw [carryOf_toNat, Nat.shiftRight_eq_div_pow]
    split <;> omega
  · rw [carryOf_eq]
    split <;> simp_all

theorem exec_addReg (x y : Reg) (s : State) :
    exec (.addReg x y) s = .next ((s.aluWrite wrappedSum x y).writeV 15 (carryOf (s.readV x) (s.readV y))) := rfl

/-- The add with carry writes its destination and VF alone (45_alu R165). -/
theorem addReg_sameRegsBut (s : State) (x y : Reg) (c : Byte) : SameRegsBut [x, 15] s ((s.aluWrite wrappedSum x y).writeV 15 c) := by
  intro r hr
  simp only [List.mem_cons, List.not_mem_nil, or_false, not_or] at hr
  rw [readV_writeV_other _ _ hr.2, State.aluWrite, readV_writeV_other _ _ hr.1]

/-- Settles O49: the sum is written first and the carry after it, from the operands as they stood, so in VF the carry stays. -/
theorem addRegistersWritesSumAndCarry : Obligations.AddRegistersWritesSumAndCarry := by
  unfold Obligations.AddRegistersWritesSumAndCarry
  refine ⟨fun _ => decode_of_row .addReg, fun x y s => ⟨_, exec_addReg x y s, ?sum, ?carry, ?others,
    writeV_frame (s.aluWrite wrappedSum x y) 15 _⟩⟩
  case sum =>
    intro hx
    rw [readV_writeV_other _ _ hx, readV_aluWrite_same, wrappedSum_toNat]
  case carry => rw [readV_writeV_same, carryOf_eq]
  case others => exact addReg_sameRegsBut s x y _

end Sys2Proof.Machine
end

section
/-! PROOF. Invariants: a step keeps the canonical memory, the range of the used slots and the shape of a fatal error, and no update of the program counter wraps. -/

namespace Sys2Proof.Machine

section StepInvariants

variable {s t : State}

/-! ### The three parts of the invariant -/

theorem step_keeps_wf (hwf : Memory.wf s.M = true) (h : step s = .next t) : Memory.wf t.M = true := by
  rwa [step_M h]

/-- What a call pushes is 2 to 0x1000, its instruction having been fetched from inside memory (10_state R28). -/
theorem pushed_in_range {op : Word} (hf : FetchesWord s op) : 2 ≤ s.advance.pc.toNat ∧ s.advance.pc.toNat ≤ 0x1000 := by
  have hadvance := fetchesWord_advance hf
  have hlt := pc_lt_of_fetchesWord hf
  omega

theorem step_keeps_liveSlots (hlive : LiveSlotsOk s) (h : step s = .next t) : LiveSlotsOk t := by
  intro i hi
  rcases step_stack_cases h with ⟨hsp, hS⟩ | ⟨-, j, hj, rfl⟩ | ⟨nnn, hcall, j, hj, rfl⟩
  · rw [slot_congr hS]
    exact hlive i (hsp ▸ hi)
  · have hij : i.val < j.val := hi
    exact hlive i (by omega)
  · have hij : i.val < j.val + 1 := hi
    rw [slot_pushed]
    split
    · exact pushed_in_range (aboutToRun_iff.mp hcall).2
    · exact hlive i (by omega)

/-- The address of a fetch fault is outside memory and fits a word (20_memory R61). -/
theorem fetch_error_addr_ge {a : Nat} (h : fetch s = .error a) : 0x1000 ≤ (BitVec.ofNat 16 a).toNat := by
  obtain ⟨hpc, rfl⟩ := fetch_error_iff.mp h
  have hlt := s.pc.isLt
  rw [BitVec.toNat_ofNat]
  split <;> omega

theorem step_makes_faultShape (h : step s = .next t) : FaultShapeOk t := by
  intro r hr
  obtain ⟨a, ha, rfl, rfl⟩ | ⟨kind, op, -, hkind, rfl, rfl⟩ := step_fault_cases h hr
  · exact ⟨rfl, rfl, _, rfl, fetch_error_addr_ge ha⟩
  · obtain ⟨rfl, hd⟩ | ⟨rfl, rfl, hsp⟩ | ⟨rfl, ⟨nnn, rfl⟩, hsp⟩ := hkind
    · exact ⟨rfl, rfl, op, rfl, hd⟩
    · exact ⟨rfl, rfl, rfl, hsp⟩
    · exact ⟨rfl, rfl, hsp, nnn, rfl⟩

theorem step_keeps_inv (hinv : s.Inv) (h : step s = .next t) : t.Inv where
  memoryWf := step_keeps_wf hinv.memoryWf h
  liveSlots := step_keeps_liveSlots hinv.liveSlots h
  faultShape := step_makes_faultShape h

end StepInvariants

/-- Settles O52: each part is kept, memory because a step writes none, the slots because a pushed pc is in range, the fault's shape because a step takes it so. -/
theorem everyStepKeepsTheInvariant : Obligations.EveryStepKeepsTheInvariant := by
  unfold Obligations.EveryStepKeepsTheInvariant
  exact fun _ _ => step_keeps_inv

/-! ### The program counter -/

/-- The instruction about to run is a skip. -/
def AboutToSkip (s : State) : Prop :=
  (∃ x kk, AboutToRun s (.skipEqImm x kk)) ∨ (∃ x kk, AboutToRun s (.skipNeImm x kk)) ∨ ∃ x y, AboutToRun s (.skipEqReg x y)

theorem aboutToSkip_of_skipCond {s u : State} {i : Instr} {cond : Bool} (hi : AboutToRun s i) (hcond : skipCond u i = some cond) :
    AboutToSkip s := by
  cases i
  case skipEqImm x kk => exact .inl ⟨x, kk, hi⟩
  case skipNeImm x kk => exact .inr (.inl ⟨x, kk, hi⟩)
  case skipEqReg x y => exact .inr (.inr ⟨x, y, hi⟩)
  all_goals cases hcond

/-- The exact value a step below 0xFFF gives `pc`, as a natural number (10_state R26, R28). -/
inductive PcUpdate (s t : State) : Prop
  | advance (hpc : t.pc.toNat = s.pc.toNat + 2)
  | skip (hpc : t.pc.toNat = s.pc.toNat + 4) (hi : AboutToSkip s)
  | jump (nnn : Addr12) (hpc : t.pc.toNat = nnn.toNat) (hi : AboutToRun s (.jump nnn) ∨ AboutToRun s (.call nnn))
  | ret (j : Fin 16) (hsp : s.sp.val = j.val + 1) (hpc : t.pc = s.slot j) (hi : AboutToRun s .ret)

theorem handler_pcUpdate {s t : State} {i : Instr} (hi : AboutToRun s i) (h : HandlerEffect s.advance i t) : PcUpdate s t := by
  have hadvance := aboutToRun_advance hi
  cases h
  case jump nnn => exact .jump nnn (jumpTo_pc_toNat _ nnn) (.inl hi)
  case push nnn j hsp => exact .jump nnn (jumpTo_pc_toNat s nnn) (.inr hi)
  case pop j hsp => exact .ret j hsp rfl hi
  case skip cond hcond =>
    have hpc := skipIf_advance_pc (aboutToRun_iff.mp hi).2 cond
    cases cond
    · exact .advance hpc
    · exact .skip hpc (aboutToSkip_of_skipCond hi hcond)
  all_goals exact .advance hadvance

/-- Where a step leaves `pc`: a fetch fault at 0xFFF or above leaves it, any other step sets it exactly. -/
theorem step_pc_cases {s t : State} (h : step s = .next t) :
    (0xFFF ≤ s.pc.toNat ∧ t.pc = s.pc) ∨ (s.pc.toNat < 0xFFF ∧ PcUpdate s t) := by
  obtain ⟨-, ⟨hpc, a, -, rfl⟩ | ⟨op, hf, -, rfl⟩ | ⟨i, hi, heff⟩⟩ := step_effect h
  · exact .inl ⟨hpc, rfl⟩
  · exact .inr ⟨pc_lt_of_fetchesWord hf, .advance (fetchesWord_advance hf)⟩
  · exact .inr ⟨pc_lt_of_fetchesWord (aboutToRun_iff.mp hi).2, handler_pcUpdate hi heff⟩

/-- Every exact update stays in range: a skip from 0xFFE is the largest, a target is below 0x1000 and a used slot at most 0x1000 (10_state R28). -/
theorem pcInRange_of_update {s t : State} (hlive : LiveSlotsOk s) (hlt : s.pc.toNat < 0xFFF) (h : PcUpdate s t) : PcInRange t := by
  unfold PcInRange
  cases h with
  | advance hpc => omega
  | skip hpc => omega
  | jump nnn hpc =>
    have := nnn.isLt
    omega
  | ret j hsp hpc =>
    have := hlive j (by omega)
    rw [hpc]
    omega

theorem step_keeps_pcInRange {s t : State} (hlive : LiveSlotsOk s) (hpc : PcInRange s) (h : step s = .next t) : PcInRange t := by
  rcases step_pc_cases h with ⟨-, heq⟩ | ⟨hlt, hupdate⟩
  · rwa [PcInRange, heq]
  · exact pcInRange_of_update hlive hlt hupdate

/-- Settles O53: a step leaves `pc` or updates it exactly, and each exact update stays in range. -/
theorem programCounterNeverWraps : Obligations.ProgramCounterNeverWraps := by
  unfold Obligations.ProgramCounterNeverWraps
  intro s t hinv hpc h
  refine ⟨step_keeps_pcInRange hinv.liveSlots hpc h, ?_⟩
  rcases step_pc_cases h with ⟨hge, heq⟩ | ⟨hlt, hupdate⟩
  · exact ⟨fun _ => heq, fun hlt => absurd hge (by omega)⟩
  · refine ⟨fun hge => absurd hge (by omega), fun _ => ?_⟩
    cases hupdate with
    | advance hpc => exact .inl hpc
    | skip hpc hi => exact .inr (.inl ⟨hpc, hi⟩)
    | jump nnn hpc hi => exact .inr (.inr (.inl ⟨nnn, hi, hpc⟩))
    | ret j hsp hpc hi => exact .inr (.inr (.inr ⟨hi, j, hsp, congrArg BitVec.toNat hpc⟩))

end Sys2Proof.Machine
end

section
/-! PROOF. Runs: what every step keeps a run keeps, how the run loop ends, and the balance of calls and returns. -/

namespace Sys2Proof.Machine

/-- What every step of a run keeps holds at its end. -/
theorem runsTo_keeps {P Q : State → Prop} (hkeep : ∀ s t, P s → Q s → step s = .next t → Q t) :
    ∀ {n s t}, RunsTo P n s t → Q s → Q t
  | 0, _, _, rfl, hs => hs
  | _ + 1, _, _, ⟨hp, _, hstep, hrest⟩, hs => runsTo_keeps hkeep hrest (hkeep _ _ hp hs hstep)

/-! ### Memory and the invariant along a run -/

theorem runsTo_M {P : State → Prop} {n : Nat} {s t : State} (h : RunsTo P n s t) : t.M = s.M :=
  runsTo_keeps (Q := fun u => u.M = s.M) (fun _ _ _ hu hstep => (step_M hstep).trans hu) h rfl

/-- Settles O20: no step writes memory, so no run does. -/
theorem memoryIsConstantDuringARun : Obligations.MemoryIsConstantDuringARun := by
  unfold Obligations.MemoryIsConstantDuringARun
  exact fun n s t h => ⟨runsTo_M h, sameMemory_of_M (runsTo_M h)⟩

/-- The rules of a fatal error speak of Faulted states alone. -/
theorem faultShape_of_not_faulted {s : State} (h : ∀ r, s.status ≠ .faulted r) : FaultShapeOk s := fun r hr => absurd hr (h r)

theorem liveSlots_of_empty {s : State} (h : s.sp = 0) : LiveSlotsOk s := by
  intro i hi
  simp [h] at hi

theorem reset_inv : State.reset.Inv where
  memoryWf := reset_memory_wf
  liveSlots := liveSlots_of_empty rfl
  faultShape := faultShape_of_not_faulted fun _ h => by cases h

theorem init_inv (entry : Word) (seed : Vector Byte 16) (image : Nat → Byte) : (State.init entry seed image).Inv where
  memoryWf := ofImage_wf image
  liveSlots := liveSlots_of_empty rfl
  faultShape := faultShape_of_not_faulted fun _ h => by cases h

/-- Settles O51: both memories are canonical, no slot is used, and neither state is Faulted. -/
theorem invariantHoldsAtTheStart : Obligations.InvariantHoldsAtTheStart := by
  unfold Obligations.InvariantHoldsAtTheStart
  exact ⟨reset_inv, init_inv⟩

/-- The first fetch sees the image (20_memory R50). -/
theorem init_byteAt (entry : Word) (seed : Vector Byte 16) (image : Nat → Byte) {a : Nat} (ha : a < 4096) :
    (State.init entry seed image).byteAt a = image a :=
  imageFrom_read image Config.memSize 0 a (by simp [Config.memSize]) (Nat.zero_le a) (by simpa [Config.memSize] using ha)

/-- Settles O54: the invariant and the range of `pc` hold at the start and every step keeps them, and memory is constant. -/
theorem everyReachableStateIsGood : Obligations.EveryReachableStateIsGood := by
  unfold Obligations.EveryReachableStateIsGood
  intro entry seed image n t h
  refine ⟨?inv, ?image, ?pc⟩
  case inv => exact runsTo_keeps (fun _ _ _ => step_keeps_inv) h (init_inv entry seed image)
  case image =>
    intro a ha
    rw [byteAt_congr (runsTo_M h), init_byteAt entry seed image ha]
  case pc =>
    intro hentry
    have hgood := runsTo_keeps (Q := fun u => u.Inv ∧ PcInRange u)
      (fun _ _ _ hu hstep => ⟨step_keeps_inv hu.1 hstep, step_keeps_pcInRange hu.1.liveSlots hu.2 hstep⟩) h
      ⟨init_inv entry seed image, hentry⟩
    exact hgood.2

/-! ### The run loop -/

theorem step_notYetRunning {s : State} (h : s.status = .notYetRunning) : step s = .fault .notStarted := by
  simp [step, h]

theorem runFor_notYetRunning {s : State} (h : s.status = .notYetRunning) (n : Nat) : runFor n s = .notStarted s :=
  (runFor_of_step_fault (step_notYetRunning h) n).trans (runSeenAt_notYetRunning h)

theorem runFor_halted {s : State} (h : s.status = .halted) (n : Nat) : runFor n s = .returned s :=
  (runFor_of_step_fault (step_halted h) n).trans (runSeenAt_halted h)

theorem runFor_faulted {s : State} {r : FaultRecord} (h : s.status = .faulted r) (n : Nat) : runFor n s = .returned s :=
  (runFor_of_step_fault (step_faulted h) n).trans (runSeenAt_faulted h)

theorem runFor_succ {s t : State} (h : step s = .next t) (n : Nat) : runFor (n + 1) s = runFor n t := by
  rw [runFor, h]

theorem step_ne_notYetRunning {s t : State} (h : step s = .next t) : t.status ≠ .notYetRunning := by
  rcases step_status_cases h with hr | ⟨hr, -⟩ | ⟨r, hr⟩ <;> simp [hr]

/-- What a look of at most `n` steps at a run from `s` tells of each of its ends (40_engine R106). -/
def EndsAs (n : Nat) (s : State) : RunResult → Prop
  | .returned t => (t.status = .halted ∨ ∃ r, t.status = .faulted r) ∧ ∃ k ≤ n, RunsTo (fun u => u.status = .running) k s t
  | .stillRunning t => t.status = .running ∧ RunsTo (fun u => u.status = .running) n s t
  | .notStarted t => t = s ∧ s.status = .notYetRunning

/-- A step before a look adds itself to the run that leads to its end. -/
theorem endsAs_succ {n : Nat} {s t : State} {result : RunResult} (hr : s.status = .running) (h : step s = .next t)
    (hend : EndsAs n t result) : EndsAs (n + 1) s result := by
  cases result with
  | returned u =>
    obtain ⟨hterminal, k, hk, hrun⟩ := hend
    exact ⟨hterminal, k + 1, Nat.succ_le_succ hk, hr, t, h, hrun⟩
  | stillRunning u =>
    obtain ⟨hu, hrun⟩ := hend
    exact ⟨hu, hr, t, h, hrun⟩
  | notStarted u => exact absurd hend.2 (step_ne_notYetRunning h)

/-- A machine that does not run is at its end whatever the bound. -/
theorem runFor_endsAs_of_not_running {s : State} (hs : s.status ≠ .running) (n : Nat) : EndsAs n s (runFor n s) := by
  cases hstatus : s.status with
  | notYetRunning => rw [runFor_notYetRunning hstatus]; exact ⟨rfl, hstatus⟩
  | running => exact absurd hstatus hs
  | halted => rw [runFor_halted hstatus]; exact ⟨.inl hstatus, 0, Nat.zero_le n, rfl⟩
  | faulted r => rw [runFor_faulted hstatus]; exact ⟨.inr ⟨r, hstatus⟩, 0, Nat.zero_le n, rfl⟩

theorem runFor_endsAs (n : Nat) (s : State) : EndsAs n s (runFor n s) := by
  by_cases hs : s.status = .running
  · induction n generalizing s with
    | zero =>
      rw [runFor, runSeenAt_running hs]
      exact ⟨hs, rfl⟩
    | succ n ih =>
      obtain ⟨t, ht⟩ := step_next_of_running hs
      rw [runFor_succ ht]
      by_cases ht' : t.status = .running
      · exact endsAs_succ hs ht (ih t ht')
      · exact endsAs_succ hs ht (runFor_endsAs_of_not_running ht' n)
  · exact runFor_endsAs_of_not_running hs n

/-- Settles O27: by induction on the bound, each look ends as its result says. -/
theorem runReturnsOnlyATerminalStatus : Obligations.RunReturnsOnlyATerminalStatus := by
  unfold Obligations.RunReturnsOnlyATerminalStatus
  intro n s t
  have hend := runFor_endsAs n s
  refine ⟨?_, ?_, ?_⟩ <;>
  · intro h
    rw [h] at hend
    exact hend

/-! ### A jump to itself -/

/-- The step of a jump to its own address changes nothing: `pc` goes forward by 2 and back (42_control_flow R131). -/
theorem step_jump_to_itself {s : State} {nnn : Addr12} (hi : AboutToRun s (.jump nnn)) (hpc : nnn.toNat = s.pc.toNat) :
    step s = .next s := by
  have htarget : nnn.setWidth 16 = s.pc := BitVec.eq_of_toNat_eq ((jumpTo_pc_toNat s nnn).trans hpc)
  rw [step_of_aboutToRun hi, exec_jump, State.jumpTo, htarget]
  rfl

theorem core_run_succ {M : Host.Core} {s t : M.State} (h : M.step s = .next t) (n : Nat) : M.run (n + 1) s = M.run n t := by
  rw [Host.Core.run, h]

section Fixpoint

variable {s : State} (h : step s = .next s)
include h

theorem core_run_of_fixpoint : ∀ n, Sys2Proof.core.run n s = .next s
  | 0 => rfl
  | n + 1 => (core_run_succ (M := Sys2Proof.core) h n).trans (core_run_of_fixpoint n)

theorem runFor_of_fixpoint (hr : s.status = .running) : ∀ n, runFor n s = .stillRunning s
  | 0 => runSeenAt_running hr
  | n + 1 => (runFor_succ h n).trans (runFor_of_fixpoint hr n)

theorem runsTo_of_fixpoint {P : State → Prop} {n : Nat} {t : State} (hrun : RunsTo P n s t) : t = s := by
  refine runsTo_keeps (Q := (· = s)) ?_ hrun rfl
  rintro u v - rfl hv
  cases h.symm.trans hv
  rfl

end Fixpoint

/-- Settles O26: the state is a fixpoint of the step and running, so every run from it stays there. -/
theorem jumpToItselfNeverEnds : Obligations.JumpToItselfNeverEnds := by
  unfold Obligations.JumpToItselfNeverEnds
  intro s nnn hi hpc n
  have hfix := step_jump_to_itself hi hpc
  refine ⟨core_run_of_fixpoint hfix n, runFor_of_fixpoint hfix hi.1 n, ?safe⟩
  case safe =>
    intro k _ t hrun r
    rw [runsTo_of_fixpoint hfix hrun, hi.1]
    simp

/-! ### Calls and returns -/

/-- The step of a call with room (42_control_flow R132). -/
theorem step_call {s : State} {nnn : Addr12} {j : Fin 16} (hi : AboutToRun s (.call nnn)) (hsp : s.sp.val = j.val) :
    step s = .next { s with pc := nnn.setWidth 16, S := s.S.set j.val s.advance.pc, sp := j.succ } :=
  (step_of_aboutToRun hi).trans (exec_call_of_room (s := s.advance) nnn hsp)

/-- The step of a return with a frame (42_control_flow R130). -/
theorem step_ret {s : State} {j : Fin 16} (hi : AboutToRun s .ret) (hsp : s.sp.val = j.val + 1) :
    step s = .next { s with pc := s.slot j, sp := j.castSucc } :=
  (step_of_aboutToRun hi).trans (exec_ret_of_frame hsp)

/-- A step writes no slot in use: a push writes the one at `sp`. -/
theorem step_keeps_used_slot {s t : State} {i : Fin 16} (h : step s = .next t) (hi : i.val < s.sp.val) : t.slot i = s.slot i := by
  by_contra hne
  have := ((stackIsUsedOnlyByCallAndReturn s t h).2 i hne).2
  omega

/-- A run whose states have more than `k` frames keeps the slots up to `k`. -/
theorem runsTo_keeps_slot {k n : Nat} {s t : State} {i : Fin 16} (h : RunsTo (fun w => k < w.sp.val) n s t) (hi : i.val ≤ k) :
    t.slot i = s.slot i := by
  refine runsTo_keeps (Q := fun w => w.slot i = s.slot i) (fun w w' hk hw hstep => ?_) h rfl
  exact (step_keeps_used_slot hstep (by omega)).trans hw

/-- Settles O55: the call pushes its return address in slot `sp`, the run above keeps that slot and those below, and the return pops it. -/
theorem matchedReturnResumesAfterTheCall : Obligations.MatchedReturnResumesAfterTheCall := by
  unfold Obligations.MatchedReturnResumesAfterTheCall
  intro s t u v nnn n hcall hroom hstep hrun husp hret hstep'
  obtain ⟨j, hj⟩ : ∃ j : Fin 16, s.sp.val = j.val := ⟨⟨s.sp.val, hroom⟩, rfl⟩
  cases (step_call hcall hj).symm.trans hstep
  cases (step_ret hret (husp.trans (congrArg (· + 1) hj))).symm.trans hstep'
  have hslot (i : Fin 16) (hi : i.val ≤ s.sp.val) : u.slot i = if i.val = j.val then s.advance.pc else s.slot i :=
    (runsTo_keeps_slot hrun hi).trans (slot_pushed s _ _ _ j i)
  refine ⟨Fin.ext (by simp [hj]), ?resumes, hret.1, ?below⟩
  case resumes =>
    have hpc : u.slot j = s.advance.pc := (hslot j hj.ge).trans (if_pos rfl)
    exact (congrArg BitVec.toNat hpc).trans (aboutToRun_advance hcall)
  case below =>
    intro i hi
    exact (hslot i hi.le).trans (if_neg (by omega))

/-- Calls with room count their frames and leave the status. -/
theorem runsTo_calls {n : Nat} {s t : State} (h : RunsTo (fun w => ∃ nnn, AboutToRun w (.call nnn)) n s t) (hroom : s.sp.val + n ≤ 16) :
    t.sp.val = s.sp.val + n ∧ t.status = s.status := by
  induction n generalizing s with
  | zero =>
    obtain rfl : s = t := h
    exact ⟨rfl, rfl⟩
  | succ n ih =>
    obtain ⟨⟨nnn, hcall⟩, u, hstep, hrest⟩ := h
    obtain ⟨j, hj⟩ : ∃ j : Fin 16, s.sp.val = j.val := ⟨⟨s.sp.val, by omega⟩, rfl⟩
    cases (step_call hcall hj).symm.trans hstep
    have husp : j.succ.val = s.sp.val + 1 := by simp [hj]
    obtain ⟨hsp, hstatus⟩ := ih hrest (by simp only [husp]; omega)
    exact ⟨by simp only [husp] at hsp; omega, hstatus⟩

theorem running_of_runsTo_calls {n : Nat} {s t : State} (h : RunsTo (fun w => ∃ nnn, AboutToRun w (.call nnn)) n s t) (hn : 0 < n) :
    s.status = .running := by
  obtain ⟨n, rfl⟩ := Nat.exists_eq_succ_of_ne_zero hn.ne'
  obtain ⟨⟨nnn, hcall⟩, -⟩ := h
  exact hcall.1

/-- Settles O56: each call with room adds one frame, and a call with 16 takes the fatal error of its own instruction. -/
theorem sixteenNestedCallsFitAndTheNextOverflows : Obligations.SixteenNestedCallsFitAndTheNextOverflows := by
  unfold Obligations.SixteenNestedCallsFitAndTheNextOverflows
  intro n s t hrun hroom
  obtain ⟨hsp, hstatus⟩ := runsTo_calls hrun hroom
  refine ⟨hsp, fun hn => hstatus.trans (running_of_runsTo_calls hrun hn), ?overflow⟩
  case overflow =>
    rintro hfull ⟨nnn, hcall⟩
    have htsp : t.sp = 16 := Fin.ext (hsp.trans hfull)
    exact ⟨_, _, (step_of_aboutToRun hcall).trans (exec_call_of_full nnn htsp), raiseInHandler_status _ _ _, rfl,
      instrAddr_advance t, htsp⟩

end Sys2Proof.Machine
end

section
/-! PROOF. What a step depends on: two bytes of memory, the slots below `sp`, and the registers an instruction reads. -/

namespace Sys2Proof.Machine

/-! ### The same state with another memory -/

theorem skipIf_withM (s : State) (cond : Bool) (m : Memory) : State.skipIf { s with M := m } cond = { s.skipIf cond with M := m } := by
  cases cond <;> rfl

/-- No handler reads memory. -/
theorem exec_withM {i : Instr} {s t : State} (h : exec i s = .next t) (m : Memory) :
    exec i { s with M := m } = .next { t with M := m } := by
  cases i
  case ret =>
    rcases exec_ret_next h with ⟨j, hj, rfl⟩ | ⟨hsp, rfl⟩
    · exact exec_ret_of_frame (s := { s with M := m }) hj
    · exact exec_ret_of_empty (s := { s with M := m }) hsp
  case call nnn =>
    rcases exec_call_next h with ⟨j, hj, rfl⟩ | ⟨hsp, rfl⟩
    · exact exec_call_of_room (s := { s with M := m }) nnn hj
    · exact exec_call_of_full (s := { s with M := m }) nnn hsp
  case skipEqImm | skipNeImm | skipEqReg =>
    cases h
    exact congrArg Host.Outcome.next (skipIf_withM s _ m)
  all_goals
    cases h
    rfl

/-- A fetch reads the two bytes at `pc` (40_engine R101). -/
theorem fetch_congr {s u : State} (hpc : u.pc = s.pc) (hhi : u.byteAt s.pc.toNat = s.byteAt s.pc.toNat)
    (hlo : u.byteAt (s.pc.toNat + 1) = s.byteAt (s.pc.toNat + 1)) : fetch u = fetch s := by
  unfold State.byteAt at hhi hlo
  simp only [fetch, memRead, hpc, hhi, hlo]

theorem fetchesWord_congr {s u : State} {op : Word} (h : fetch u = fetch s) (hf : FetchesWord s op) : FetchesWord u op :=
  fetch_ok_iff.mp (h.trans (fetch_ok_iff.mpr hf))

/-- The step with another memory that agrees at the two bytes fetched. -/
theorem step_withM {s t : State} {m : Memory} (hhi : Memory.read m s.pc.toNat = s.byteAt s.pc.toNat)
    (hlo : Memory.read m (s.pc.toNat + 1) = s.byteAt (s.pc.toNat + 1)) (h : step s = .next t) :
    step { s with M := m } = .next { t with M := m } := by
  have hfetch : fetch { s with M := m } = fetch s := fetch_congr rfl hhi hlo
  obtain ⟨hr, ⟨a, ha, rfl⟩ | ⟨op, hf, hd, rfl⟩ | ⟨op, i, hf, hd, hexec⟩⟩ := step_cases h
  · exact step_fetch_fault (s := { s with M := m }) hr (hfetch.trans ha)
  · exact step_unknown (s := { s with M := m }) hr (fetchesWord_congr hfetch hf) hd
  · exact (step_known (s := { s with M := m }) hr (fetchesWord_congr hfetch hf) hd).trans (exec_withM hexec m)

/-- Settles O21: the fetch reads the two bytes, and no handler reads memory. -/
theorem stepReadsOnlyTheTwoFetchedBytes : Obligations.StepReadsOnlyTheTwoFetchedBytes := by
  unfold Obligations.StepReadsOnlyTheTwoFetchedBytes
  exact fun s t m hhi hlo h => step_withM hhi hlo h

/-- Settles O42: the two steps fetch at A and at A + 4, where the memories agree. -/
theorem skippedWordHasNoEffect : Obligations.SkippedWordHasNoEffect := by
  unfold Obligations.SkippedWordHasNoEffect
  intro s t u m h hpc h' hagree
  have hagree' (a : Nat) (h2 : a ≠ s.pc.toNat + 2) (h3 : a ≠ s.pc.toNat + 3) : Memory.read m a = t.byteAt a :=
    (hagree a h2 h3).trans (byteAt_congr (step_M h) a).symm
  exact ⟨step_withM (hagree _ (by omega) (by omega)) (hagree _ (by omega) (by omega)) h,
    step_withM (hagree' _ (by omega) (by omega)) (hagree' _ (by omega) (by omega)) h'⟩

/-! ### The same state with another stack -/

/-- Two states that agree on all but the slots at or above `sp` (10_state R30). -/
def SameButStaleSlots (t u : State) : Prop :=
  u.pc = t.pc ∧ u.sp = t.sp ∧ SameRegsBut [] t u ∧ SameMemory t u ∧ SameStatus t u ∧ ∀ i : Fin 16, i.val < t.sp.val → u.slot i = t.slot i

section StaleSlots

variable {s t : State} {stack : Vector Word 16} (hstack : ∀ i : Fin 16, i.val < s.sp.val → stack[i] = s.slot i)

theorem skipIf_withS (s : State) (cond : Bool) (stack : Vector Word 16) :
    State.skipIf { s with S := stack } cond = { s.skipIf cond with S := stack } := by
  cases cond <;> rfl

include hstack

/-- A state that keeps the stack pointer and the stack stays the same but for stale slots under another stack. -/
theorem sameButStaleSlots_withS (hsp : t.sp = s.sp) (hS : t.S = s.S) : SameButStaleSlots t { t with S := stack } :=
  ⟨rfl, rfl, sameRegs_of_V rfl _, sameMemory_of_M rfl, ⟨rfl, rfl⟩, fun i hi => (hstack i (hsp ▸ hi)).trans (slot_congr hS i).symm⟩

/-- A handler reads a slot only where a return pops it, below `sp`. -/
theorem exec_withS {i : Instr} (h : exec i s = .next t) :
    ∃ u, exec i { s with S := stack } = .next u ∧ SameButStaleSlots t u := by
  cases i
  case ret =>
    rcases exec_ret_next h with ⟨j, hj, rfl⟩ | ⟨hsp, rfl⟩
    · refine ⟨_, exec_ret_of_frame (s := { s with S := stack }) hj, hstack j (by omega), rfl, sameRegs_of_V rfl _, sameMemory_of_M rfl,
        ⟨rfl, rfl⟩, fun i hi => ?_⟩
      have hij : i.val < j.val := hi
      exact hstack i (by omega)
    · exact ⟨_, exec_ret_of_empty (s := { s with S := stack }) hsp, sameButStaleSlots_withS hstack rfl rfl⟩
  case call nnn =>
    rcases exec_call_next h with ⟨j, hj, rfl⟩ | ⟨hsp, rfl⟩
    · refine ⟨_, exec_call_of_room (s := { s with S := stack }) nnn hj, rfl, rfl, sameRegs_of_V rfl _, sameMemory_of_M rfl,
        ⟨rfl, rfl⟩, fun i hi => ?_⟩
      have hij : i.val < j.val + 1 := hi
      rw [slot_pushed s, slot_pushed { s with S := stack }]
      split
      · rfl
      · exact hstack i (by omega)
    · exact ⟨_, exec_call_of_full (s := { s with S := stack }) nnn hsp, sameButStaleSlots_withS hstack rfl rfl⟩
  case skipEqImm | skipNeImm | skipEqReg =>
    cases h
    exact ⟨_, congrArg Host.Outcome.next (skipIf_withS s _ stack), sameButStaleSlots_withS hstack (skipIf_sp s _) (skipIf_S s _)⟩
  all_goals
    cases h
    exact ⟨_, rfl, sameButStaleSlots_withS hstack rfl rfl⟩

theorem step_withS (h : step s = .next t) : ∃ u, step { s with S := stack } = .next u ∧ SameButStaleSlots t u := by
  obtain ⟨hr, ⟨a, ha, rfl⟩ | ⟨op, hf, hd, rfl⟩ | ⟨op, i, hf, hd, hexec⟩⟩ := step_cases h
  · exact ⟨_, step_fetch_fault (s := { s with S := stack }) hr ha, sameButStaleSlots_withS hstack rfl rfl⟩
  · exact ⟨_, step_unknown (s := { s with S := stack }) hr hf hd, sameButStaleSlots_withS hstack rfl rfl⟩
  · rw [step_known (s := { s with S := stack }) hr hf hd]
    exact exec_withS (s := s.advance) hstack hexec

end StaleSlots

/-- Settles O22: no fetch reads a slot, and of the handlers a return alone, below `sp`. -/
theorem staleSlotsNeverMatter : Obligations.StaleSlotsNeverMatter := by
  unfold Obligations.StaleSlotsNeverMatter
  exact fun s t stack hstack h => step_withS hstack h

/-! ### The same state with other registers -/

/-- One instruction's row of R22: what it writes, and what its outcome depends on. -/
def AccessesItsRow (i : Instr) (s : State) : Prop :=
  ∃ t, exec i s = .next t ∧ SameRegsBut (regsWritten i) s t ∧
    ∀ regs : Vector Byte 16, (∀ r ∈ regsRead i, regs[r] = s.readV r) →
      ∃ u, exec i { s with V := regs } = .next u ∧ u.pc = t.pc ∧ SameStack t u ∧ SameMemory t u ∧ SameStatus t u ∧
        ∀ r ∈ regsWritten i, u.readV r = t.readV r

section RegisterAccess

variable {i : Instr} {s t : State}

/-- An instruction that neither reads nor writes a register. -/
theorem accesses_of_no_register (h : exec i s = .next t) (hwrites : regsWritten i = []) (hV : t.V = s.V)
    (h' : ∀ regs, exec i { s with V := regs } = .next { t with V := regs }) : AccessesItsRow i s := by
  refine ⟨t, h, sameRegs_of_V hV _, fun regs _ => ⟨_, h' regs, rfl, sameStack_of_fields rfl rfl, sameMemory_of_M rfl, ⟨rfl, rfl⟩, ?_⟩⟩
  simp [hwrites]

/-- An instruction that skips on a condition of the registers it reads. -/
theorem accesses_of_skip (cond : State → Bool) (hwrites : regsWritten i = []) (hexec : ∀ s, exec i s = .next (s.skipIf (cond s)))
    (hcond : ∀ regs, (∀ r ∈ regsRead i, regs[r] = s.readV r) → cond { s with V := regs } = cond s) : AccessesItsRow i s := by
  refine ⟨_, hexec s, sameRegs_of_V (skipIf_V s _) _, fun regs hregs => ⟨_, hexec _, ?_⟩⟩
  rw [hcond regs hregs, hwrites]
  cases cond s <;>
    exact ⟨rfl, sameStack_of_fields rfl rfl, sameMemory_of_M rfl, ⟨rfl, rfl⟩, by simp⟩

/-- An instruction that writes one register, with a value of the registers it reads. -/
theorem accesses_of_write (x : Reg) (value : State → Byte) (hwrites : regsWritten i = [x])
    (hexec : ∀ s, exec i s = .next (s.writeV x (value s)))
    (hvalue : ∀ regs, (∀ r ∈ regsRead i, regs[r] = s.readV r) → value { s with V := regs } = value s) : AccessesItsRow i s := by
  refine ⟨_, hexec s, hwrites ▸ writeV_sameRegsBut s x _, fun regs hregs =>
    ⟨_, hexec _, rfl, sameStack_of_fields rfl rfl, sameMemory_of_M rfl, ⟨rfl, rfl⟩, ?_⟩⟩
  simp [hwrites, hvalue regs hregs]

/-- The add with carry writes the destination and VF from the two registers it reads (45_alu R165). -/
theorem accesses_of_addReg (x y : Reg) (s : State) : AccessesItsRow (.addReg x y) s := by
  refine ⟨_, exec_addReg x y s, addReg_sameRegsBut s x y _, fun regs hregs =>
    ⟨_, exec_addReg x y _, rfl, sameStack_of_fields rfl rfl, sameMemory_of_M rfl, ⟨rfl, rfl⟩, ?_⟩⟩
  have hx : State.readV { s with V := regs } x = s.readV x := hregs x (by simp [regsRead])
  have hy : State.readV { s with V := regs } y = s.readV y := hregs y (by simp [regsRead])
  intro r hr
  have hr' : r = x ∨ r = 15 := by simpa [regsWritten, regVF] using hr
  rcases hr' with rfl | rfl <;> simp [readV_writeV, State.aluWrite, hx, hy]

end RegisterAccess

/-- Settles O23: an instruction that uses no register, one that skips on the registers it reads, or one that writes from them. -/
theorem registerAccessFollowsTheTable : Obligations.RegisterAccessFollowsTheTable := by
  unfold Obligations.RegisterAccessFollowsTheTable
  intro i s
  cases i
  case halt => exact accesses_of_no_register (exec_halt s) rfl rfl fun _ => rfl
  case clearDisplay => exact accesses_of_no_register (exec_clearDisplay s) rfl rfl fun _ => rfl
  case jump nnn => exact accesses_of_no_register (exec_jump nnn s) rfl rfl fun _ => rfl
  case ret =>
    obtain ⟨t, ht⟩ := exec_next .ret s
    rcases exec_ret_next ht with ⟨j, hj, rfl⟩ | ⟨hsp, rfl⟩
    · exact accesses_of_no_register ht rfl rfl fun regs => exec_ret_of_frame (s := { s with V := regs }) hj
    · exact accesses_of_no_register ht rfl rfl fun regs => exec_ret_of_empty (s := { s with V := regs }) hsp
  case call nnn =>
    obtain ⟨t, ht⟩ := exec_next (.call nnn) s
    rcases exec_call_next ht with ⟨j, hj, rfl⟩ | ⟨hsp, rfl⟩
    · exact accesses_of_no_register ht rfl rfl fun regs => exec_call_of_room (s := { s with V := regs }) nnn hj
    · exact accesses_of_no_register ht rfl rfl fun regs => exec_call_of_full (s := { s with V := regs }) nnn hsp
  case skipEqImm x kk =>
    refine accesses_of_skip (fun s => s.readV x == kk) rfl (fun s => exec_skipEqImm s x kk) fun regs hregs => ?_
    exact congrArg (· == kk) (hregs x (by simp [regsRead]))
  case skipNeImm x kk =>
    refine accesses_of_skip (fun s => s.readV x != kk) rfl (fun s => exec_skipNeImm s x kk) fun regs hregs => ?_
    exact congrArg (· != kk) (hregs x (by simp [regsRead]))
  case skipEqReg x y =>
    refine accesses_of_skip (fun s => s.readV x == s.readV y) rfl (fun s => exec_skipEqReg s x y) fun regs hregs => ?_
    exact congrArg₂ (· == ·) (hregs x (by simp [regsRead])) (hregs y (by simp [regsRead]))
  case loadImm x kk => exact accesses_of_write x (fun _ => kk) rfl (fun s => exec_loadImm s x kk) fun _ _ => rfl
  case addImm x kk =>
    refine accesses_of_write x (fun s => wrappedSum (s.readV x) kk) rfl (fun s => exec_addImm s x kk) fun regs hregs => ?_
    exact congrArg (wrappedSum · kk) (hregs x (by simp [regsRead]))
  case copy x y =>
    refine accesses_of_write x (fun s => s.readV y) rfl (fun s => exec_copy s x y) fun regs hregs => ?_
    exact hregs y (by simp [regsRead])
  case bitOr x y =>
    refine accesses_of_write x (fun s => s.readV x ||| s.readV y) rfl (fun s => exec_bitOr s x y) fun regs hregs => ?_
    exact congrArg₂ (· ||| ·) (hregs x (by simp [regsRead])) (hregs y (by simp [regsRead]))
  case bitAnd x y =>
    refine accesses_of_write x (fun s => s.readV x &&& s.readV y) rfl (fun s => exec_bitAnd s x y) fun regs hregs => ?_
    exact congrArg₂ (· &&& ·) (hregs x (by simp [regsRead])) (hregs y (by simp [regsRead]))
  case bitXor x y =>
    refine accesses_of_write x (fun s => s.readV x ^^^ s.readV y) rfl (fun s => exec_bitXor s x y) fun regs hregs => ?_
    exact congrArg₂ (· ^^^ ·) (hregs x (by simp [regsRead])) (hregs y (by simp [regsRead]))
  case addReg x y => exact accesses_of_addReg x y s

end Sys2Proof.Machine
end

section
/-! PROOF. Construction and the host's transactions, up to the state at the first fetch. -/

namespace Sys2Proof.Machine

/-! ### Construction and the first fetch -/

theorem reset_readV (r : Reg) : State.reset.readV r = 0#8 := Vector.getElem_replicate r.isLt

theorem reset_slot (i : Fin 16) : State.reset.slot i = 0#16 := Vector.getElem_replicate i.isLt

/-- Settles O28: each register and each slot is read from a constant vector. -/
theorem constructionZeroesRegistersAndStack : Obligations.ConstructionZeroesRegistersAndStack := by
  unfold Obligations.ConstructionZeroesRegistersAndStack
  exact ⟨reset_readV, reset_slot, rfl, rfl, rfl⟩

/-- Settles O29: the parameters stand in their fields, the image in memory, and the stack is construction's. -/
theorem firstFetchStateHoldsTheParameters : Obligations.FirstFetchStateHoldsTheParameters := by
  unfold Obligations.FirstFetchStateHoldsTheParameters
  exact fun entry seed image =>
    ⟨rfl, fun _ => rfl, fun _ ha => init_byteAt entry seed image ha, rfl, reset_slot, rfl, rfl⟩

/-! ### Memory accesses -/

theorem memRead_inside {m : Memory} {a : Nat} (ha : a < 4096) : memRead m a = .ok (Memory.read m a) := if_pos ha

theorem memRead_outside {m : Memory} {a : Nat} (ha : 4096 ≤ a) : memRead m a = .error a := if_neg (Nat.not_lt.mpr ha)

theorem memWrite_inside {m : Memory} {a : Nat} (v : Byte) (ha : a < 4096) : memWrite m a v = .ok (Memory.write m a v) := if_pos ha

theorem memWrite_outside {m : Memory} {a : Nat} (v : Byte) (ha : 4096 ≤ a) : memWrite m a v = .error a := if_neg (Nat.not_lt.mpr ha)

/-- Settles O31: the bound check is the read's own. -/
theorem memReadChecksTheBound : Obligations.MemReadChecksTheBound := by
  unfold Obligations.MemReadChecksTheBound
  exact fun m a => ⟨memRead_inside, memRead_outside⟩

/-! ### The transactions -/

section Transactions

variable {s : State} (a : Nat) (v : Byte) (entry : Word) (x : Reg) (b : Byte)

theorem hostLoad_inside (h : s.status = .notYetRunning) (ha : a < 4096) :
    hostLoad a v s = .next { s with M := Memory.write s.M a v } := by
  rw [hostLoad, beforeRun_of_notYetRunning h, memWrite_inside v ha]

theorem hostLoad_outside (h : s.status = .notYetRunning) (ha : 4096 ≤ a) : hostLoad a v s = .fault (.hostLoadOutOfBounds a) := by
  rw [hostLoad, beforeRun_of_notYetRunning h, memWrite_outside v ha]

theorem hostLoad_started (h : s.status ≠ .notYetRunning) : hostLoad a v s = .fault .hostNotBeforeRun := beforeRun_of_started h _

theorem hostSetEntry_before (h : s.status = .notYetRunning) : hostSetEntry entry s = .next (s.setPc entry) := beforeRun_of_notYetRunning h _

theorem hostSetEntry_started (h : s.status ≠ .notYetRunning) : hostSetEntry entry s = .fault .hostNotBeforeRun := beforeRun_of_started h _

theorem hostPreSeed_before (h : s.status = .notYetRunning) : hostPreSeed x b s = .next (s.writeV x b) := beforeRun_of_notYetRunning h _

theorem hostPreSeed_started (h : s.status ≠ .notYetRunning) : hostPreSeed x b s = .fault .hostNotBeforeRun := beforeRun_of_started h _

theorem hostRun_before (h : s.status = .notYetRunning) : hostRun s = .next s.startRun := beforeRun_of_notYetRunning h _

theorem hostRun_started (h : s.status ≠ .notYetRunning) : hostRun s = .fault .hostNotBeforeRun := beforeRun_of_started h _

@[simp] theorem next_andThen (s : State) (f : State → Host.Outcome State Fault Refusal) : andThen (.next s) f = f s := rfl

@[simp] theorem fault_andThen (r : Fault) (f : State → Host.Outcome State Fault Refusal) : andThen (.fault r) f = .fault r := rfl

/-- Before the run a setter that keeps the time and leaves memory as it finds it comes before or after a load with the same outcome; at any other time both stop. -/
theorem load_commutes (set : State → State) (hstatus : ∀ s, (set s).status = s.status)
    (hset : ∀ (s : State) m, set { s with M := m } = { set s with M := m }) :
    andThen (hostLoad a v s) (fun s => beforeRun s (.next (set s))) = andThen (beforeRun s (.next (set s))) (hostLoad a v) := by
  by_cases h : s.status = .notYetRunning
  · have h' : (set s).status = .notYetRunning := (hstatus s).trans h
    have hM : (set s).M = s.M := (congrArg State.M (hset s s.M) :)
    rw [beforeRun_of_notYetRunning h, next_andThen]
    by_cases ha : a < 4096
    · rw [hostLoad_inside a v h ha, next_andThen, hostLoad_inside a v h' ha, hM, ← hset]
      exact beforeRun_of_notYetRunning (s := { s with M := _ }) h _
    · have ha' : 4096 ≤ a := Nat.not_lt.mp ha
      rw [hostLoad_outside a v h ha', hostLoad_outside a v h' ha', fault_andThen]
  · rw [hostLoad_started a v h, beforeRun_of_started h, fault_andThen, fault_andThen]

theorem setEntry_preSeed_commute :
    andThen (hostSetEntry entry s) (hostPreSeed x b) = andThen (hostPreSeed x b s) (hostSetEntry entry) := by
  by_cases h : s.status = .notYetRunning
  · rw [hostSetEntry_before entry h, hostPreSeed_before x b h, next_andThen, next_andThen,
      hostPreSeed_before x b (s := s.setPc entry) h, hostSetEntry_before entry (s := s.writeV x b) h]
    rfl
  · rw [hostSetEntry_started entry h, hostPreSeed_started x b h]
    rfl

end Transactions

/-- Settles O30: a load inside memory is the canonical memory's write, one outside it or after the start stops. -/
theorem hostLoadWritesOneByte : Obligations.HostLoadWritesOneByte := by
  unfold Obligations.HostLoadWritesOneByte
  intro s a v hwf
  refine ⟨fun h ha => ⟨_, hostLoad_inside a v h ha, ?same, ?others, write_wf hwf ha, rfl, sameRegs_of_V rfl _, sameStack_of_fields rfl rfl,
    rfl, rfl⟩, hostLoad_outside a v, hostLoad_started a v⟩
  case same => exact (read_write hwf a a v).trans (if_pos rfl)
  case others => exact fun c hc => (read_write hwf a c v).trans (if_neg hc)

/-- Settles O58: each setter writes its field before the run and stops after its start, and the three write different fields. -/
theorem hostSettersActBeforeTheRunInAnyOrder : Obligations.HostSettersActBeforeTheRunInAnyOrder := by
  unfold Obligations.HostSettersActBeforeTheRunInAnyOrder
  intro s entry x b v a
  refine ⟨fun h => ⟨?setEntry, ?preSeed⟩, fun h => ⟨hostSetEntry_started entry h, hostPreSeed_started x b h⟩, ?loadEntry, ?loadSeed,
    setEntry_preSeed_commute entry x b⟩
  case setEntry =>
    exact ⟨_, hostSetEntry_before entry h, setPc_pc s entry, sameRegs_of_V rfl _, sameStack_of_fields rfl rfl, sameMemory_of_M rfl, rfl, rfl⟩
  case preSeed =>
    exact ⟨_, hostPreSeed_before x b h, readV_writeV_same s x b, writeV_sameRegsBut s x b, writeV_frame s x b⟩
  case loadEntry => exact load_commutes a v (·.setPc entry) (fun _ => rfl) fun _ _ => rfl
  case loadSeed => exact load_commutes a v (·.writeV x b) (fun _ => rfl) fun _ _ => rfl

/-- Settles O59: before the run a step and a look stop and the run transaction sets the status, once; no step leads back. -/
theorem runStartsOnceAndNoStepComesBeforeIt : Obligations.RunStartsOnceAndNoStepComesBeforeIt := by
  unfold Obligations.RunStartsOnceAndNoStepComesBeforeIt
  intro s
  refine ⟨fun h => ⟨step_notYetRunning h, runFor_notYetRunning h, ?run⟩, hostRun_started, fun t => step_ne_notYetRunning⟩
  case run =>
    exact ⟨_, hostRun_before h, startRun_status s, startRun_pc s, startRun_signals s, sameRegs_of_V rfl _, sameStack_of_fields rfl rfl,
      sameMemory_of_M rfl⟩

/-! ### The boot -/

/-- Loading bytes from address `a` writes each at its own address, and memory alone (20_memory R52). -/
theorem hostLoadBytes_next (bytes : List Byte) {a : Nat} {s : State} (h : s.status = .notYetRunning) (hwf : Memory.wf s.M = true)
    (ha : a + bytes.length ≤ 4096) :
    ∃ m, hostLoadBytes a bytes s = .next { s with M := m } ∧ Memory.wf m = true ∧
      (∀ c < a, Memory.read m c = Memory.read s.M c) ∧ ∀ k (hk : k < bytes.length), Memory.read m (a + k) = bytes[k] := by
  induction bytes generalizing a s with
  | nil => exact ⟨s.M, rfl, hwf, fun _ _ => rfl, fun k hk => absurd hk (by simp)⟩
  | cons b rest ih =>
    rw [List.length_cons] at ha
    have hin : a < 4096 := by omega
    obtain ⟨m, hload, hwf', hbelow, hat⟩ := ih (s := { s with M := Memory.write s.M a b }) h (write_wf hwf hin) (a := a + 1) (by omega)
    refine ⟨m, ?_, hwf', fun c hc => ?_, fun k hk => ?_⟩
    · rw [hostLoadBytes, hostLoad_inside a b h hin, next_andThen, hload]
    · rw [hbelow c (by omega), read_write hwf, if_neg (by omega)]
    · cases k with
      | zero => rw [Nat.add_zero, hbelow a (by omega), read_write hwf, if_pos rfl, List.getElem_cons_zero]
      | succ k => rw [show a + (k + 1) = a + 1 + k by omega, hat k (by simpa using hk), List.getElem_cons_succ]

/-- Above memory a canonical memory reads as the fill. -/
theorem read_above {m : Memory} {b c : Nat} (h : wfFrom b m = true) (hc : Config.memSize ≤ c) : Memory.read m c = Config.memFill := by
  induction m generalizing b with
  | nil => rfl
  | cons cell rest ih =>
    obtain ⟨k, w⟩ := cell
    obtain ⟨-, hk, -, hrest⟩ := wfFrom_cons.mp h
    rw [Memory.read, if_neg (by omega)]
    exact ih hrest

/-- A canonical memory that reads as an image in all 4096 bytes is the image's memory. -/
theorem eq_ofImage {m : Memory} {image : Nat → Byte} (h : Memory.wf m = true) (hread : ∀ a < 4096, Memory.read m a = image a) :
    m = Memory.ofImage image := by
  refine eq_of_read h (ofImage_wf image) fun a => ?_
  by_cases ha : a < 4096
  · exact (hread a ha).trans (imageFrom_read image 4096 0 a (by simp [Config.memSize]) (Nat.zero_le a) (by omega)).symm
  · have ha' : Config.memSize ≤ a := Nat.not_lt.mp ha
    rw [read_above h ha', read_above (ofImage_wf image) ha']

/-- Loading a whole image after construction gives the image's memory. -/
theorem hostLoadBytes_image (image : Nat → Byte) {n : Nat} (hn : n = 4096) :
    hostLoadBytes 0 ((List.range n).map image) hostConstruct = .next { hostConstruct with M := Memory.ofImage image } := by
  obtain ⟨m, hload, hwf, -, hread⟩ :=
    hostLoadBytes_next ((List.range n).map image) (a := 0) (s := hostConstruct) rfl reset_memory_wf (by simp [hn])
  have hm : m = Memory.ofImage image := by
    refine eq_ofImage hwf fun a ha => ?_
    have hlength : a < ((List.range n).map image).length := by simpa [hn] using ha
    simpa using hread a hlength
  rw [hload, hm]

/-- Pre-seeding the registers of a list writes each its own seed, and the register file alone (10_state R24). -/
theorem hostPreSeedRegs_next (seed : Vector Byte 16) (regs : List Reg) {s : State} (h : s.status = .notYetRunning) :
    ∃ V : Vector Byte 16, hostPreSeedRegs seed regs s = .next { s with V := V } ∧
      ∀ r : Reg, V[r] = if r ∈ regs then seed[r] else s.readV r := by
  induction regs generalizing s with
  | nil => exact ⟨s.V, rfl, fun r => by simp [State.readV]⟩
  | cons x rest ih =>
    obtain ⟨V, hseed, hread⟩ := ih (s := s.writeV x seed[x]) h
    refine ⟨V, ?_, fun r => ?_⟩
    · rw [hostPreSeedRegs, hostPreSeed_before x _ h, next_andThen, hseed]
      rfl
    · rw [hread, readV_writeV]
      by_cases hr : r = x
      · subst hr
        simp
      · simp [hr]

/-- Pre-seeding every register sets the register file to the seed. -/
theorem hostPreSeedRegs_all (seed : Vector Byte 16) {s : State} (h : s.status = .notYetRunning) :
    hostPreSeedRegs seed (List.finRange 16) s = .next { s with V := seed } := by
  obtain ⟨V, hseed, hread⟩ := hostPreSeedRegs_next seed (List.finRange 16) h
  have hV : V = seed := Vector.ext fun i hi => by simpa using hread ⟨i, hi⟩
  rw [hseed, hV]

/-- Settles O60: the load gives the image's memory, set-entry and pre-seed the entry and the seed, and run the status. -/
theorem hostBootReachesTheFirstFetchState : Obligations.HostBootReachesTheFirstFetchState := by
  unfold Obligations.HostBootReachesTheFirstFetchState
  intro entry seed image
  rw [hostBoot, hostLoadBytes_image image rfl, next_andThen, hostSetEntry_before entry rfl, next_andThen, hostPreSeedRegs_all seed rfl, next_andThen,
    hostRun_before rfl]
  rfl

end Sys2Proof.Machine
end
